-- ==== Sys2Proof/Word.lean ====
section
/-! DEFINITION. The word types of CORE and their plainest arithmetic (spec/00_scope.md R5, R7). Every value is unsigned. -/

namespace Sys2Proof

/-- A general register, a timer, a memory cell: XLEN = 8 bits (R5). -/
abbrev Byte := BitVec 8

/-- pc, I, a stack entry, an instruction word: ALEN = ILEN = 16 bits (R5). -/
abbrev Word := BitVec 16

/-- The NNN field, a 12-bit address operand (R91). -/
abbrev Addr := BitVec 12

/-- The N field, a 4-bit literal (R91). -/
abbrev Nibble := BitVec 4

/-- A general register's number, 0x0 to 0xF: NREG = 16 (R5, R21). -/
abbrev Reg := Fin 16

/-- `zext_16` of R9, the one widening to address width (R92: never a sign extension). -/
abbrev zext16 {n : Nat} (v : BitVec n) : Word := v.setWidth 16

end Sys2Proof
end

