-- ==== Sys2Proof/Syntax.lean ====
section
/-! DEFINITION. The instructions of CORE: one constructor per row of spec/opcode_table.json, in the table's order (spec/30_encoding.md R100). -/

namespace Sys2Proof

/-- An instruction with its operands (R92, R93). The ignored bits of a word (Y of `SHR`/`SHL`, N of `SE`/`SNE Vx, Vy`:
R99, R103) are kept as operands that no meaning reads, so that a word and its instruction determine each other
(log 11). -/
inductive Instr where
  /-- 00E0 `CLS`, R210 -/
  | cls
  /-- 00EE `RET`, R140 -/
  | ret
  /-- 1NNN `JP addr`, R141 -/
  | jp (nnn : Addr)
  /-- 2NNN `CALL addr`, R142 -/
  | call (nnn : Addr)
  /-- 3XKK `SE Vx, byte`, R143 -/
  | seByte (x : Reg) (kk : Byte)
  /-- 4XKK `SNE Vx, byte`, R144 -/
  | sneByte (x : Reg) (kk : Byte)
  /-- 5XY- `SE Vx, Vy`, R145; `n` is ignored -/
  | seReg (x y : Reg) (n : Nibble)
  /-- 6XKK `LD Vx, byte`, R161 -/
  | ldByte (x : Reg) (kk : Byte)
  /-- 7XKK `ADD Vx, byte`, R162 -/
  | addByte (x : Reg) (kk : Byte)
  /-- 8XY0 `LD Vx, Vy`, R163 -/
  | ldReg (x y : Reg)
  /-- 8XY1 `OR Vx, Vy`, R164 -/
  | orReg (x y : Reg)
  /-- 8XY2 `AND Vx, Vy`, R165 -/
  | andReg (x y : Reg)
  /-- 8XY3 `XOR Vx, Vy`, R166 -/
  | xorReg (x y : Reg)
  /-- 8XY4 `ADD Vx, Vy`, R167 -/
  | addReg (x y : Reg)
  /-- 8XY5 `SUB Vx, Vy`, R168 -/
  | subReg (x y : Reg)
  /-- 8XY6 `SHR Vx`, R169; `y` is ignored -/
  | shr (x y : Reg)
  /-- 8XY7 `SUBN Vx, Vy`, R170 -/
  | subnReg (x y : Reg)
  /-- 8XYE `SHL Vx`, R171; `y` is ignored -/
  | shl (x y : Reg)
  /-- 9XY- `SNE Vx, Vy`, R146; `n` is ignored -/
  | sneReg (x y : Reg) (n : Nibble)
  /-- ANNN `LD I, addr`, R190 -/
  | ldI (nnn : Addr)
  /-- BNNN `JP V0, addr`, R147 -/
  | jpV0 (nnn : Addr)
  /-- CXKK `RND Vx, byte`, R172 -/
  | rnd (x : Reg) (kk : Byte)
  /-- DXYN `DRW Vx, Vy, nibble`, R211 -/
  | drw (x y : Reg) (n : Nibble)
  /-- EX9E `SKP Vx`, R223 -/
  | skp (x : Reg)
  /-- EXA1 `SKNP Vx`, R224 -/
  | sknp (x : Reg)
  /-- FX07 `LD Vx, DT`, R220 -/
  | ldVxDT (x : Reg)
  /-- FX0A `LD Vx, K`, R225 -/
  | ldVxK (x : Reg)
  /-- FX15 `LD DT, Vx`, R221 -/
  | ldDTVx (x : Reg)
  /-- FX18 `LD ST, Vx`, R222 -/
  | ldSTVx (x : Reg)
  /-- FX1E `ADD I, Vx`, R191 -/
  | addI (x : Reg)
  /-- FX29 `LD F, Vx`, R192 -/
  | ldF (x : Reg)
  /-- FX33 `LD B, Vx`, R193 -/
  | ldB (x : Reg)
  /-- FX55 `LD [I], Vx`, R194 -/
  | ldMemVx (x : Reg)
  /-- FX65 `LD Vx, [I]`, R195 -/
  | ldVxMem (x : Reg)
  deriving DecidableEq, Repr

end Sys2Proof
end

