-- ==== Sys2Proof/Decode.lean ====
section
/-! DEFINITION. Decoding (total, rejecting by name) and encoding of instruction words, and the opcode table, from spec/30_encoding.md R90 to R101. -/

namespace Sys2Proof

/-- Why bytes are no instruction. -/
inductive DecodeReject where
  /-- fewer than the two bytes of a word (R90); a step never meets it, since its fetch yields a whole word (log 15) -/
  | tooShort
  /-- R101: the word matches no row of R100 -/
  | unknown (w : Word)
  deriving DecidableEq, Repr

/-! The six fields (R91). -/

/-- OP = w[15:12]. -/
def fieldOP (w : Word) : Nibble := w.extractLsb' 12 4

/-- X = w[11:8]. -/
def fieldX (w : Word) : Reg := Fin.ofNat 16 (w.extractLsb' 8 4).toNat

/-- Y = w[7:4]. -/
def fieldY (w : Word) : Reg := Fin.ofNat 16 (w.extractLsb' 4 4).toNat

/-- N = w[3:0]. -/
def fieldN (w : Word) : Nibble := w.extractLsb' 0 4

/-- KK = w[7:0]. -/
def fieldKK (w : Word) : Byte := w.extractLsb' 0 8

/-- NNN = w[11:0]. -/
def fieldNNN (w : Word) : Addr := w.extractLsb' 0 12

/-- R95: OP = 0x0, second level on the full word. -/
def decodeOp0 (w : Word) : Except DecodeReject Instr :=
  if w = 0x00E0 then .ok .cls
  else if w = 0x00EE then .ok .ret
  else .error (.unknown w)

/-- R96: OP = 0x8, second level on N. -/
def decodeOp8 (w : Word) : Except DecodeReject Instr :=
  match (fieldN w).toNat with
  | 0x0 => .ok (.ldReg (fieldX w) (fieldY w))
  | 0x1 => .ok (.orReg (fieldX w) (fieldY w))
  | 0x2 => .ok (.andReg (fieldX w) (fieldY w))
  | 0x3 => .ok (.xorReg (fieldX w) (fieldY w))
  | 0x4 => .ok (.addReg (fieldX w) (fieldY w))
  | 0x5 => .ok (.subReg (fieldX w) (fieldY w))
  | 0x6 => .ok (.shr (fieldX w) (fieldY w))
  | 0x7 => .ok (.subnReg (fieldX w) (fieldY w))
  | 0xE => .ok (.shl (fieldX w) (fieldY w))
  | _ => .error (.unknown w)

/-- R97: OP = 0xE, second level on KK. -/
def decodeOpE (w : Word) : Except DecodeReject Instr :=
  if fieldKK w = 0x9E then .ok (.skp (fieldX w))
  else if fieldKK w = 0xA1 then .ok (.sknp (fieldX w))
  else .error (.unknown w)

/-- R98: OP = 0xF, second level on KK. -/
def decodeOpF (w : Word) : Except DecodeReject Instr :=
  if fieldKK w = 0x07 then .ok (.ldVxDT (fieldX w))
  else if fieldKK w = 0x0A then .ok (.ldVxK (fieldX w))
  else if fieldKK w = 0x15 then .ok (.ldDTVx (fieldX w))
  else if fieldKK w = 0x18 then .ok (.ldSTVx (fieldX w))
  else if fieldKK w = 0x1E then .ok (.addI (fieldX w))
  else if fieldKK w = 0x29 then .ok (.ldF (fieldX w))
  else if fieldKK w = 0x33 then .ok (.ldB (fieldX w))
  else if fieldKK w = 0x55 then .ok (.ldMemVx (fieldX w))
  else if fieldKK w = 0x65 then .ok (.ldVxMem (fieldX w))
  else .error (.unknown w)

/-- R94: the first level of the dispatch, on OP; R99: OP = 0x5 and 0x9 have no second level. -/
def decodeWord (w : Word) : Except DecodeReject Instr :=
  match (fieldOP w).toNat with
  | 0x0 => decodeOp0 w
  | 0x1 => .ok (.jp (fieldNNN w))
  | 0x2 => .ok (.call (fieldNNN w))
  | 0x3 => .ok (.seByte (fieldX w) (fieldKK w))
  | 0x4 => .ok (.sneByte (fieldX w) (fieldKK w))
  | 0x5 => .ok (.seReg (fieldX w) (fieldY w) (fieldN w))
  | 0x6 => .ok (.ldByte (fieldX w) (fieldKK w))
  | 0x7 => .ok (.addByte (fieldX w) (fieldKK w))
  | 0x8 => decodeOp8 w
  | 0x9 => .ok (.sneReg (fieldX w) (fieldY w) (fieldN w))
  | 0xA => .ok (.ldI (fieldNNN w))
  | 0xB => .ok (.jpV0 (fieldNNN w))
  | 0xC => .ok (.rnd (fieldX w) (fieldKK w))
  | 0xD => .ok (.drw (fieldX w) (fieldY w) (fieldN w))
  | 0xE => decodeOpE w
  | 0xF => decodeOpF w
  | _ => .error (.unknown w)  -- no 4-bit OP reaches this line

/-- R63: the two bytes of an instruction, high byte first, as a word. -/
def wordOfBytes (hi lo : Byte) : Word := hi ++ lo

/-- R63: the two bytes of a word as memory holds them, high byte at the lower address. -/
def bytesOfWord (w : Word) : List Byte := [w.extractLsb' 8 8, w.extractLsb' 0 8]

/-- The instruction at the head of a list of bytes, with the bytes after it. -/
def decode : List Byte → Except DecodeReject (Instr × List Byte)
  | hi :: lo :: rest =>
    match decodeWord (wordOfBytes hi lo) with
    | .ok i => .ok (i, rest)
    | .error e => .error e
  | _ => .error .tooShort

/-! The encoder, one line per row of R100, over the formats of R93. -/

/-- Format A: OP and NNN. -/
def wordA (op : Nibble) (nnn : Addr) : Word := op ++ nnn

/-- Formats XK and XS: OP, X and KK. -/
def wordXK (op : Nibble) (x : Reg) (kk : Byte) : Word := op ++ BitVec.ofNat 4 x.val ++ kk

/-- Formats XY, XYn and XYN: OP, X, Y and N. -/
def wordXYN (op : Nibble) (x y : Reg) (n : Nibble) : Word := op ++ BitVec.ofNat 4 x.val ++ BitVec.ofNat 4 y.val ++ n

/-- The word of an instruction (R100). -/
def encodeWord : Instr → Word
  | .cls => 0x00E0
  | .ret => 0x00EE
  | .jp nnn => wordA 0x1 nnn
  | .call nnn => wordA 0x2 nnn
  | .seByte x kk => wordXK 0x3 x kk
  | .sneByte x kk => wordXK 0x4 x kk
  | .seReg x y n => wordXYN 0x5 x y n
  | .ldByte x kk => wordXK 0x6 x kk
  | .addByte x kk => wordXK 0x7 x kk
  | .ldReg x y => wordXYN 0x8 x y 0x0
  | .orReg x y => wordXYN 0x8 x y 0x1
  | .andReg x y => wordXYN 0x8 x y 0x2
  | .xorReg x y => wordXYN 0x8 x y 0x3
  | .addReg x y => wordXYN 0x8 x y 0x4
  | .subReg x y => wordXYN 0x8 x y 0x5
  | .shr x y => wordXYN 0x8 x y 0x6
  | .subnReg x y => wordXYN 0x8 x y 0x7
  | .shl x y => wordXYN 0x8 x y 0xE
  | .sneReg x y n => wordXYN 0x9 x y n
  | .ldI nnn => wordA 0xA nnn
  | .jpV0 nnn => wordA 0xB nnn
  | .rnd x kk => wordXK 0xC x kk
  | .drw x y n => wordXYN 0xD x y n
  | .skp x => wordXK 0xE x 0x9E
  | .sknp x => wordXK 0xE x 0xA1
  | .ldVxDT x => wordXK 0xF x 0x07
  | .ldVxK x => wordXK 0xF x 0x0A
  | .ldDTVx x => wordXK 0xF x 0x15
  | .ldSTVx x => wordXK 0xF x 0x18
  | .addI x => wordXK 0xF x 0x1E
  | .ldF x => wordXK 0xF x 0x29
  | .ldB x => wordXK 0xF x 0x33
  | .ldMemVx x => wordXK 0xF x 0x55
  | .ldVxMem x => wordXK 0xF x 0x65

/-- The bytes of an instruction in memory. -/
def encode (i : Instr) : List Byte := bytesOfWord (encodeWord i)

/-- R100's table: mnemonic, mask and match of each row, in its order. It is read by the laws and the statements, not
by the decoder, which follows the two-level dispatch of R94. -/
def opcodeTable : List (String × Word × Word) :=
  [("CLS", 0xFFFF, 0x00E0), ("RET", 0xFFFF, 0x00EE), ("JP_addr", 0xF000, 0x1000), ("CALL_addr", 0xF000, 0x2000),
   ("SE_Vx__byte", 0xF000, 0x3000), ("SNE_Vx__byte", 0xF000, 0x4000), ("SE_Vx__Vy", 0xF000, 0x5000),
   ("LD_Vx__byte", 0xF000, 0x6000), ("ADD_Vx__byte", 0xF000, 0x7000)] ++
  [("LD_Vx__Vy", 0xF00F, 0x8000), ("OR_Vx__Vy", 0xF00F, 0x8001), ("AND_Vx__Vy", 0xF00F, 0x8002),
   ("XOR_Vx__Vy", 0xF00F, 0x8003), ("ADD_Vx__Vy", 0xF00F, 0x8004), ("SUB_Vx__Vy", 0xF00F, 0x8005),
   ("SHR_Vx", 0xF00F, 0x8006), ("SUBN_Vx__Vy", 0xF00F, 0x8007), ("SHL_Vx", 0xF00F, 0x800E)] ++
  [("SNE_Vx__Vy", 0xF000, 0x9000), ("LD_I__addr", 0xF000, 0xA000), ("JP_V0__addr", 0xF000, 0xB000),
   ("RND_Vx__byte", 0xF000, 0xC000), ("DRW_Vx__Vy__nibble", 0xF000, 0xD000)] ++
  [("SKP_Vx", 0xF0FF, 0xE09E), ("SKNP_Vx", 0xF0FF, 0xE0A1), ("LD_Vx__DT", 0xF0FF, 0xF007), ("LD_Vx__K", 0xF0FF, 0xF00A),
   ("LD_DT__Vx", 0xF0FF, 0xF015), ("LD_ST__Vx", 0xF0FF, 0xF018), ("ADD_I__Vx", 0xF0FF, 0xF01E),
   ("LD_F__Vx", 0xF0FF, 0xF029), ("LD_B__Vx", 0xF0FF, 0xF033), ("LD__I___Vx", 0xF0FF, 0xF055),
   ("LD_Vx___I", 0xF0FF, 0xF065)]

/-- The row of R100 an instruction belongs to. -/
def Instr.mnemonic : Instr → String
  | .cls => "CLS" | .ret => "RET" | .jp _ => "JP_addr" | .call _ => "CALL_addr"
  | .seByte _ _ => "SE_Vx__byte" | .sneByte _ _ => "SNE_Vx__byte" | .seReg _ _ _ => "SE_Vx__Vy"
  | .ldByte _ _ => "LD_Vx__byte" | .addByte _ _ => "ADD_Vx__byte" | .ldReg _ _ => "LD_Vx__Vy"
  | .orReg _ _ => "OR_Vx__Vy" | .andReg _ _ => "AND_Vx__Vy" | .xorReg _ _ => "XOR_Vx__Vy"
  | .addReg _ _ => "ADD_Vx__Vy" | .subReg _ _ => "SUB_Vx__Vy" | .shr _ _ => "SHR_Vx"
  | .subnReg _ _ => "SUBN_Vx__Vy" | .shl _ _ => "SHL_Vx" | .sneReg _ _ _ => "SNE_Vx__Vy"
  | .ldI _ => "LD_I__addr" | .jpV0 _ => "JP_V0__addr" | .rnd _ _ => "RND_Vx__byte"
  | .drw _ _ _ => "DRW_Vx__Vy__nibble" | .skp _ => "SKP_Vx" | .sknp _ => "SKNP_Vx"
  | .ldVxDT _ => "LD_Vx__DT" | .ldVxK _ => "LD_Vx__K" | .ldDTVx _ => "LD_DT__Vx" | .ldSTVx _ => "LD_ST__Vx"
  | .addI _ => "ADD_I__Vx" | .ldF _ => "LD_F__Vx" | .ldB _ => "LD_B__Vx" | .ldMemVx _ => "LD__I___Vx"
  | .ldVxMem _ => "LD_Vx___I"

/-- The instruction read from a row's bits: `nbits` bits of `w`, all bits above them 0, laid out as one word, high byte
first. -/
def decodeTableWord (nbits w : Nat) : Option Instr :=
  match decode (bytesOfWord (BitVec.ofNat 16 (w % 2 ^ nbits))) with
  | .ok (i, _) => some i
  | .error _ => none

end Sys2Proof
end

