-- ==== Sys2Proof/Config.lean ====
section
/-! DEFINITION. What is fixed for the machine: the parameters of spec/00_scope.md R5 and R6, and the free inputs of a step, which have no body. -/

namespace Sys2Proof.Config

/-- MEM_SIZE: addresses 0x000 to 0xFFF (R5). -/
def memSize : Nat := 0x1000

/-- STACK_DEPTH (R5). -/
def stackDepth : Nat := 16

/-- FB_W and FB_H (R5). -/
def fbWidth : Nat := 64

/-- FB_H (R5). -/
def fbHeight : Nat := 32

/-- PROG_BASE: the load address and the reset value of pc (R5, R281). -/
def progBase : Word := 0x200

/-- MAX_IMAGE: the longest image `Load` takes (R6, R73). -/
def maxImage : Nat := 3584

/-- FONT_BASE (R5). -/
def fontBase : Word := 0x000

/-- FONT_STRIDE: bytes a glyph (R5). -/
def fontStride : Word := 5

/-- FLAG_REG: the register used as flag output, VF (R5, R22). -/
def flagReg : Reg := 0xF

/-- FONT, the OPEN parameter of R6 at its default: the table of spec/20_memory.md R62 (log 5). -/
def font : List Byte :=
  [0xF0, 0x90, 0x90, 0x90, 0xF0] ++ [0x20, 0x60, 0x20, 0x20, 0x70] ++
  [0xF0, 0x10, 0xF0, 0x80, 0xF0] ++ [0xF0, 0x10, 0xF0, 0x10, 0xF0] ++
  [0x90, 0x90, 0xF0, 0x10, 0x10] ++ [0xF0, 0x80, 0xF0, 0x10, 0xF0] ++
  [0xF0, 0x80, 0xF0, 0x90, 0xF0] ++ [0xF0, 0x10, 0x20, 0x40, 0x40] ++
  [0xF0, 0x90, 0xF0, 0x90, 0xF0] ++ [0xF0, 0x90, 0xF0, 0x10, 0xF0] ++
  [0xF0, 0x90, 0xF0, 0x90, 0x90] ++ [0xE0, 0x90, 0xE0, 0x90, 0xE0] ++
  [0xF0, 0x80, 0x80, 0x80, 0xF0] ++ [0xE0, 0x90, 0x90, 0x90, 0xE0] ++
  [0xF0, 0x80, 0xF0, 0x80, 0xF0] ++ [0xF0, 0x80, 0xF0, 0x80, 0x80]

/-- TIMER_PER_STEP, the OPEN parameter of R6 at its default (D16, log 4). Both values are modelled by
`Sys2Proof.Machine.stepWith`, which takes the parameter as an argument. -/
def timerPerStep : Bool := true

/-- FREE VALUE (log 2): the byte the environment puts on `rnd_in` for the n-th step after reset (R35: nothing may be
assumed about it). No body. -/
opaque rndInput : Nat → Byte

/-- FREE VALUE (log 3): the `tick60` input of the n-th step after reset (R125), read only when TIMER_PER_STEP is
false. No body. -/
opaque tickInput : Nat → Bool

end Sys2Proof.Config
end

