-- ==== Sys2Proof/Machine/State.lean ====
section
/-! DEFINITION. The state of CORE (spec/10_state.md R20) as plain data, the inputs of a step beside it, the reasons a step can stop, and the state after reset (R37). -/

namespace Sys2Proof.Machine

/-- The fault causes of spec/60_exceptions.md R241. They are recorded in FAULT.cause by the faulting step, which is a
next state (R128), and are what `step` answers on a core that has already faulted (R129: the step is refused, nothing
changes, the recorded fault is returned again). No meaning raises one as an outcome. Safe: the spec gives such a step
no effect. -/
inductive Fault where
  /-- Code 1, R242: decode found no instruction. Answered by `step` on a core with this cause recorded. Safe. -/
  | unknownOpcode
  /-- Code 2, R243: an access above 0xFFF. Answered by `step` on a core with this cause recorded. Safe. -/
  | memoryOutOfRange
  /-- Code 3, R244: the 17th nested call. Answered by `step` on a core with this cause recorded. Safe. -/
  | stackOverflow
  /-- Code 4, R245: a return with an empty stack. Answered by `step` on a core with this cause recorded. Safe. -/
  | stackUnderflow
  deriving DecidableEq, Repr

/-- Why an instruction has no meaning. Nothing in this model answers it: all 34 instructions have theirs. -/
inductive Refusal where
  /-- Raised by an arm of `exec` whose instruction is not modelled (none is left). Safe. -/
  | notModelled (mnemonic : String)
  deriving DecidableEq, Repr

/-- The fault status record FAULT (R34). `none` is cause 0; the codes are `Fault.code`'s (log 12). -/
structure FaultRecord where
  /-- what was raised, if anything -/
  cause : Option Fault
  /-- the address the faulting instruction was fetched from -/
  addr : Word
  /-- per cause, R241 -/
  info : Word
  deriving DecidableEq, Repr

/-- FAULT after reset: (0, 0, 0) (R37). -/
def FaultRecord.clear : FaultRecord := { cause := none, addr := 0, info := 0 }

/-- MEM (R29): the cells that differ from the reset contents (`Memory.initial`, log 5), by strictly rising address. -/
abbrev Memory := List Host.Cell

/-- FB (R30): 32 rows from the top, each of 64 cells from the left; `true` is a set pixel. -/
abbrev Framebuffer := Vector (Vector Bool 64) 32

/-- THE STATE OF CORE: exactly the thirteen components of R20 and nothing else. -/
structure Arch where
  /-- V0 to VF (R21) -/
  v : Vector Byte 16
  /-- I, the index register (R23) -/
  i : Word
  /-- the program counter (R24) -/
  pc : Word
  /-- STACK, the return addresses (R25) -/
  stack : Vector Word 16
  /-- SP, the number of return addresses held (R26) -/
  sp : BitVec 5
  /-- DT, the delay timer (R27) -/
  dt : Byte
  /-- ST, the sound timer (R28) -/
  st : Byte
  /-- MEM (R29) -/
  mem : Memory
  /-- FB, the framebuffer (R30) -/
  fb : Framebuffer
  /-- KEYS, the input latch: bit k is key k (R31) -/
  keys : BitVec 16
  /-- DRAW, the draw flag (R32) -/
  draw : Bool
  /-- ENDED, the ended report of the last successful step (R33) -/
  ended : Bool
  /-- FAULT, the fault record (R34) -/
  fault : FaultRecord
  deriving DecidableEq, Repr

/-- The inputs of the coming step, which are NOT state of CORE (R35, R36): the model's own form of the argument of
`Step(rnd)` and of the port `tick60`, needed because a step of the model takes nothing but a `State` (log 2, log 3). -/
structure Inputs where
  /-- the port `rnd_in` (R35, R39), the free byte of the coming step (log 2) -/
  rndIn : Byte
  /-- the port `tick60` (R39), the free tick of the coming step (log 3) -/
  tickIn : Bool
  /-- the number of steps since reset, which indexes the free inputs and is read by nothing else (log 2) -/
  stepNo : Nat
  deriving DecidableEq, Repr

/-- What a step of the model takes: the state of CORE (`toArch`) and, beside it, the inputs of that step. -/
structure State extends Arch, Inputs
  deriving DecidableEq, Repr

/-- The state after `Reset()` (R37, R280): every register 0, pc at 0x200 (R281), MEM at its reset contents (nothing
listed), FB clear, no fault. The last three fields are the model's own (log 10). -/
def State.reset : State where
  v := Vector.replicate 16 0
  i := 0
  pc := Config.progBase
  stack := Vector.replicate 16 0
  sp := 0
  dt := 0
  st := 0
  mem := []
  fb := Vector.replicate 32 (Vector.replicate 64 false)
  keys := 0
  draw := false
  ended := false
  fault := FaultRecord.clear
  rndIn := Config.rndInput 0
  tickIn := Config.tickInput 0
  stepNo := 0

end Sys2Proof.Machine
end

