-- ==== Sys2Proof/Machine/Ops.lean ====
section
/-! DEFINITION. The named operations over registers, memory, stack and framebuffer (spec/00_scope.md R9, spec/20_memory.md R66 to R77), and taking a fault (spec/60_exceptions.md R249). -/

namespace Sys2Proof.Machine

/-! ## Registers -/

/-- `V[r]` (R9, R21). -/
def State.getV (s : State) (r : Reg) : Byte := s.v[r]

/-- `V[r] <- b` (R9). -/
def State.setV (s : State) (r : Reg) (b : Byte) : State := { s with v := s.v.set r b }

/-- `I <- w`. All 16 bits are kept (R23). -/
def State.setI (s : State) (w : Word) : State := { s with i := w }

/-- `pc <- w`. Not masked to 12 bits (R24). -/
def State.setPc (s : State) (w : Word) : State := { s with pc := w }

/-- `DT <- b` (R27). -/
def State.setDt (s : State) (b : Byte) : State := { s with dt := b }

/-- `ST <- b` (R28). -/
def State.setSt (s : State) (b : Byte) : State := { s with st := b }

/-- MEM replaced. -/
def State.setMem (s : State) (m : Memory) : State := { s with mem := m }

/-- FB replaced. -/
def State.setFb (s : State) (f : Framebuffer) : State := { s with fb := f }

/-- `DRAW <- b` (R32). -/
def State.setDraw (s : State) (b : Bool) : State := { s with draw := b }

/-- `ENDED <- b` (R33). -/
def State.setEnded (s : State) (b : Bool) : State := { s with ended := b }

/-- `KEYS <- mask`, all 16 bits at once (R31). -/
def State.setKeys (s : State) (mask : BitVec 16) : State := { s with keys := mask }

/-! ## Taking a fault -/

/-- The code of a cause, FAULT.cause as its 3 bits (R34, R241). -/
def Fault.code : Fault → BitVec 3
  | .unknownOpcode => 1
  | .memoryOutOfRange => 2
  | .stackOverflow => 3
  | .stackUnderflow => 4

/-- FAULT.cause as its 3 bits, 0 for no fault (R34). -/
def FaultRecord.code (r : FaultRecord) : BitVec 3 :=
  match r.cause with
  | none => 0
  | some f => f.code

/-- `raise f(info)` of an instruction fetched from `a` (R9, R249): the record is written and NOTHING ELSE: no vector, no
saved register, no mode. The step that raises stops there (`Sys2Proof.Machine.finishStep`). There is no return from a
fault (R251): only `Reset` clears the record. -/
def State.raiseAt (s : State) (a : Word) (f : Fault) (info : Word) : State :=
  { s with fault := { cause := some f, addr := a, info := info } }

/-- A, the address of the executing instruction: pc has been advanced by 2 (R121, R123; log 7). -/
def State.instrAddr (s : State) : Word := s.pc - 2

/-- `raise f(info)` while an instruction is decoded or executed, after the fetch has advanced pc (R128). -/
def State.raise (s : State) (f : Fault) (info : Word) : State := s.raiseAt s.instrAddr f info

/-! ## Main memory -/

/-- The reset contents of MEM: FONT at 0x000 to 0x04F and 0 elsewhere (R61, R62). It is what an unlisted address reads
as (log 5). -/
def Memory.initial (a : Nat) : Byte := Config.font.getD a 0

/-- The byte at an address. The range check is `accessFault`'s, made before any read (log 15). -/
def Memory.read : Memory → Nat → Byte
  | [], a => Memory.initial a
  | (k, b) :: m, a => if a = k then b else Memory.read m a

/-- Every cell of an address taken out: it reads as its reset contents again. -/
def Memory.erase : Memory → Nat → Memory
  | [], _ => []
  | (k, b) :: m, a => if a = k then Memory.erase m a else (k, b) :: Memory.erase m a

/-- A cell put before the first one of a higher address. -/
def Memory.insert : Memory → Nat → Byte → Memory
  | [], a, b => [(a, b)]
  | (k, c) :: m, a, b => if a < k then (a, b) :: (k, c) :: m else (k, c) :: Memory.insert m a b

/-- `MEM[a] <- b`, keeping the canonical form: a byte equal to the reset contents is not listed. -/
def Memory.write (m : Memory) (a : Nat) (b : Byte) : Memory :=
  if b = Memory.initial a then m.erase a else (m.erase a).insert a b

/-- The canonical form from an address on: addresses rising and inside MEM, no cell equal to its reset contents. -/
def Memory.wfFrom : Nat → Memory → Bool
  | _, [] => true
  | lo, (k, b) :: m =>
    decide (lo ≤ k) && decide (k < Config.memSize) && decide (b ≠ Memory.initial k) && Memory.wfFrom (k + 1) m

/-- The canonical form of MEM: equal memories are equal lists. -/
def Memory.wf (m : Memory) : Bool := Memory.wfFrom 0 m

/-- `n` bytes in ascending address order (R64). -/
def Memory.readBytes (m : Memory) : Nat → Nat → List Byte
  | _, 0 => []
  | a, n + 1 => m.read a :: Memory.readBytes m (a + 1) n

/-- A list of bytes written in ascending address order (R64). -/
def Memory.writeBytes : Memory → Nat → List Byte → Memory
  | m, _, [] => m
  | m, a, b :: bs => Memory.writeBytes (m.write a b) (a + 1) bs

/-- R66, R67: the range check of an access to `n` bytes at `a`, on its highest address, without wrap; if it fails, the
`info` of the fault, `min(highest, 0xFFFF)`. An access of no bytes never fails. -/
def accessFault (a n : Nat) : Option Word :=
  if n ≠ 0 ∧ 0xFFF < a + n - 1 then some (BitVec.ofNat 16 (min (a + n - 1) 0xFFFF)) else none

/-- `MemRead(addr, n)` (R67). -/
def State.memRead (s : State) (a n : Nat) : Except Word (List Byte) :=
  match accessFault a n with
  | some info => .error info
  | none => .ok (s.mem.readBytes a n)

/-- `MemWrite(addr, n, v)` (R67): the check comes before any byte is written. -/
def State.memWrite (s : State) (a : Nat) (bs : List Byte) : Except Word State :=
  match accessFault a bs.length with
  | some info => .error info
  | none => .ok (s.setMem (s.mem.writeBytes a bs))

/-- A store of an instruction: done, or MemoryOutOfRange with nothing written (R66, R250). -/
def State.storeOrFault (s : State) (a : Nat) (bs : List Byte) : State :=
  match s.memWrite a bs with
  | .ok t => t
  | .error info => s.raise .memoryOutOfRange info

/-- A load of an instruction: the bytes used by `use`, or MemoryOutOfRange with nothing changed (R66, R250). -/
def State.loadOrFault (s : State) (a n : Nat) (use : List Byte → State) : State :=
  match s.memRead a n with
  | .ok bs => use bs
  | .error info => s.raise .memoryOutOfRange info

/-! ## The return stack -/

/-- The 4-bit address of a STACK entry, SP or SP - 1 (R60; log 8). -/
def stackIndex (p : BitVec 5) : Fin 16 := Fin.ofNat 16 p.toNat

/-- `STACK[SP] <- w`, then `SP <- SP + 1` (R26, R142). -/
def State.push (s : State) (w : Word) : State :=
  { s with stack := s.stack.set (stackIndex s.sp) w, sp := s.sp + 1 }

/-- `SP <- SP - 1`, then `pc <- STACK[SP]` (R26, R140). The entry stays where it is. -/
def State.popPc (s : State) : State :=
  { s with sp := s.sp - 1, pc := s.stack[stackIndex (s.sp - 1)] }

/-! ## The framebuffer -/

/-- FB with every cell 0 (R30, R210). -/
def Framebuffer.clear : Framebuffer := Vector.replicate 32 (Vector.replicate 64 false)

/-- `FB[row][col]` (R9, R30). -/
def Framebuffer.get (f : Framebuffer) (row : Fin 32) (col : Fin 64) : Bool := (f[row])[col]

/-- `FB[row][col] <- FB[row][col] ^ 1` (R211). -/
def Framebuffer.flip (f : Framebuffer) (row : Fin 32) (col : Fin 64) : Framebuffer :=
  f.set row ((f[row]).set col (!f.get row col))

end Sys2Proof.Machine
end

