-- ==== Sys2Proof/Machine/Operands.lean ====
section
/-! DEFINITION. The operand forms: literals, the index register as a base, the digit, the key, the register block, the BCD digits (spec/30_encoding.md R92, spec/43_index_memory.md R196). -/

namespace Sys2Proof.Machine

/-- The effective address of an access through I, as a natural number without wrap (R66, R196). -/
def State.base (s : State) : Nat := s.i.toNat

/-- The target of `JP V0, addr`: a 16-bit sum, not reduced to 12 bits (R147). -/
def State.offsetTarget (s : State) (nnn : Addr) : Word := zext16 nnn + zext16 (s.getV 0)

/-- The glyph address of a digit: FONT_BASE + 5 * V[x], the whole register unmasked (R192). -/
def glyphAddr (digit : Byte) : Word := Config.fontBase + Config.fontStride * zext16 digit

/-- R193: hundreds, tens and ones. -/
def bcdDigits (b : Byte) : List Byte :=
  [BitVec.ofNat 8 (b.toNat / 100), BitVec.ofNat 8 (b.toNat / 10 % 10), BitVec.ofNat 8 (b.toNat % 10)]

/-- R194: V[0] to V[x], V[0] first. -/
def State.block (s : State) (x : Reg) : List Byte := s.v.toList.take (x.val + 1)

/-- R195: `V[k] <- b[k]`, from register `k` up. -/
def State.setBlock : State → Nat → List Byte → State
  | s, _, [] => s
  | s, k, b :: bs => State.setBlock (s.setV (Fin.ofNat 16 k) b) (k + 1) bs

/-- R223: the key whose number is `k` is held; a number above 15 names no key. -/
def keyHeld (keys : BitVec 16) (k : Byte) : Bool := decide (k.toNat ≤ 15) && keys.getLsbD k.toNat

/-- R225: the highest key below `n` that is held, scanning downwards. -/
def highestKey (keys : BitVec 16) : Nat → Option Nat
  | 0 => none
  | k + 1 => if keys.getLsbD k then some k else highestKey keys k

/-- R143 to R146, R223, R224: the skip of one instruction, 2 bytes. -/
def State.skipIf (s : State) (c : Bool) : State := if c then s.setPc (s.pc + 2) else s

end Sys2Proof.Machine
end

