-- ==== Sys2Proof/Machine/Flags.lean ====
section
/-! DEFINITION. The flag outputs in VF (spec/10_state.md R22, spec/42_alu.md R160, R167 to R171) and the collision flag's drawing loop (spec/44_display.md R211). -/

namespace Sys2Proof.Machine

/-- A flag as the register value 0x00 or 0x01 (R167). -/
def flagByte (c : Bool) : Byte := if c then 1 else 0

/-- R160: VF is written with the flag, and AFTER it Vx with the result, so that the result stays when x is 0xF. -/
def State.setFlagThen (s : State) (flag : Bool) (x : Reg) (result : Byte) : State :=
  (s.setV Config.flagReg (flagByte flag)).setV x result

/-- R167: the 9-bit sum. -/
def sum9 (a b : Byte) : BitVec 9 := a.setWidth 9 + b.setWidth 9

/-- R167: the carry: the untruncated sum exceeds 255. -/
def carryOut (a b : Byte) : Bool := decide (255 < (sum9 a b).toNat)

/-- R168, R170: the minuend is strictly greater; equality gives 0. -/
def noBorrow (minuend subtrahend : Byte) : Bool := decide (subtrahend.toNat < minuend.toNat)

/-- R169: the bit a right shift discards. -/
def shiftedOutLow (a : Byte) : Bool := a.getLsbD 0

/-- R171: the bit a left shift discards. -/
def shiftedOutHigh (a : Byte) : Bool := a.getLsbD 7

/-! ## The collision flag of a draw -/

/-- One set sprite bit: the collision is raised when the cell was set, and the cell is flipped (R211). -/
def drawPixel (row : Fin 32) (col : Fin 64) (p : Framebuffer × Bool) : Framebuffer × Bool :=
  (p.1.flip row col, p.2 || p.1.get row col)

/-- The columns `c` to 7 of one sprite byte at (x0, row), column 0 being bit 7 (R211); `k` columns are left. -/
def drawCols (x0 : Nat) (row : Fin 32) (b : Byte) : Nat → Framebuffer × Bool → Framebuffer × Bool
  | 0, p => p
  | k + 1, p =>
    drawCols x0 row b k (if b.getLsbD k then drawPixel row (Fin.ofNat 64 (x0 + (7 - k))) p else p)

/-- The rows of a sprite from y0 down, each wrapped modulo 32 by itself (R76, R211). -/
def drawRows (x0 : Nat) : Nat → List Byte → Framebuffer × Bool → Framebuffer × Bool
  | _, [], p => p
  | y, b :: bs, p => drawRows x0 (y + 1) bs (drawCols x0 (Fin.ofNat 32 y) b 8 p)

/-- R211: a whole sprite drawn at (x0, y0), with the collision flag cleared first. -/
def drawSprite (f : Framebuffer) (x0 y0 : Byte) (sprite : List Byte) : Framebuffer × Bool :=
  drawRows x0.toNat y0.toNat sprite (f, false)

end Sys2Proof.Machine
end

