-- ==== Sys2Proof/Machine/Alu.lean ====
section
/-! DEFINITION. Register load, arithmetic, logic, shift, random (spec/42_alu.md R160 to R173). Sources are read from the state before the instruction (R160). -/

namespace Sys2Proof.Machine

/-- `LD Vx, byte` (R161). -/
def execLdByte (x : Reg) (kk : Byte) (s : State) : Host.Outcome State Fault Refusal :=
  .next (s.setV x kk)

/-- `ADD Vx, byte` (R162): modulo 256, no flag. -/
def execAddByte (x : Reg) (kk : Byte) (s : State) : Host.Outcome State Fault Refusal :=
  .next (s.setV x (s.getV x + kk))

/-- `LD Vx, Vy` (R163). -/
def execLdReg (x y : Reg) (s : State) : Host.Outcome State Fault Refusal :=
  .next (s.setV x (s.getV y))

/-- `OR Vx, Vy` (R164): no flag. -/
def execOrReg (x y : Reg) (s : State) : Host.Outcome State Fault Refusal :=
  .next (s.setV x (s.getV x ||| s.getV y))

/-- `AND Vx, Vy` (R165): no flag. -/
def execAndReg (x y : Reg) (s : State) : Host.Outcome State Fault Refusal :=
  .next (s.setV x (s.getV x &&& s.getV y))

/-- `XOR Vx, Vy` (R166): no flag. -/
def execXorReg (x y : Reg) (s : State) : Host.Outcome State Fault Refusal :=
  .next (s.setV x (s.getV x ^^^ s.getV y))

/-- `ADD Vx, Vy` (R167): VF the carry of the 9-bit sum, Vx its low byte. -/
def execAddReg (x y : Reg) (s : State) : Host.Outcome State Fault Refusal :=
  .next (s.setFlagThen (carryOut (s.getV x) (s.getV y)) x ((sum9 (s.getV x) (s.getV y)).setWidth 8))

/-- `SUB Vx, Vy` (R168): Vx - Vy. -/
def execSubReg (x y : Reg) (s : State) : Host.Outcome State Fault Refusal :=
  .next (s.setFlagThen (noBorrow (s.getV x) (s.getV y)) x (s.getV x - s.getV y))

/-- `SHR Vx` (R169): in place, by one; Y is ignored. -/
def execShr (x : Reg) (s : State) : Host.Outcome State Fault Refusal :=
  .next (s.setFlagThen (shiftedOutLow (s.getV x)) x (s.getV x >>> 1))

/-- `SUBN Vx, Vy` (R170): Vy - Vx. -/
def execSubnReg (x y : Reg) (s : State) : Host.Outcome State Fault Refusal :=
  .next (s.setFlagThen (noBorrow (s.getV y) (s.getV x)) x (s.getV y - s.getV x))

/-- `SHL Vx` (R171): in place, by one; Y is ignored. -/
def execShl (x : Reg) (s : State) : Host.Outcome State Fault Refusal :=
  .next (s.setFlagThen (shiftedOutHigh (s.getV x)) x (s.getV x <<< 1))

/-- `RND Vx, byte` (R172): the step's free byte under the mask. -/
def execRnd (x : Reg) (kk : Byte) (s : State) : Host.Outcome State Fault Refusal :=
  .next (s.setV x (s.rndIn &&& kk))

end Sys2Proof.Machine
end

