-- ==== Sys2Proof/Machine/Display.lean ====
section
/-! DEFINITION. The framebuffer controller's instructions (spec/44_display.md R210 to R213). -/

namespace Sys2Proof.Machine

/-- `CLS` (R210): every cell 0; VF and DRAW are left alone. -/
def execCls (s : State) : Host.Outcome State Fault Refusal :=
  .next (s.setFb Framebuffer.clear)

/-- R211 after the sprite is read: FB drawn, VF the collision flag, DRAW set. The coordinates are the register values
from before the instruction. -/
def State.drawAt (s : State) (x0 y0 : Byte) (sprite : List Byte) : State :=
  let p := drawSprite s.fb x0 y0 sprite
  ((s.setFb p.1).setV Config.flagReg (flagByte p.2)).setDraw true

/-- `DRW Vx, Vy, nibble` (R211): `n` bytes from I, drawn at (Vx, Vy). -/
def execDrw (x y : Reg) (n : Nibble) (s : State) : Host.Outcome State Fault Refusal :=
  .next (s.loadOrFault s.base n.toNat (s.drawAt (s.getV x) (s.getV y)))

end Sys2Proof.Machine
end

