-- ==== Sys2Proof/Machine/IndexMemory.lean ====
section
/-! DEFINITION. Index register, loads and stores (spec/43_index_memory.md R190 to R196). -/

namespace Sys2Proof.Machine

/-- `LD I, addr` (R190). -/
def execLdI (nnn : Addr) (s : State) : Host.Outcome State Fault Refusal :=
  .next (s.setI (zext16 nnn))

/-- `ADD I, Vx` (R191): modulo 65536, no flag, no mask. -/
def execAddI (x : Reg) (s : State) : Host.Outcome State Fault Refusal :=
  .next (s.setI (s.i + zext16 (s.getV x)))

/-- `LD F, Vx` (R192). -/
def execLdF (x : Reg) (s : State) : Host.Outcome State Fault Refusal :=
  .next (s.setI (glyphAddr (s.getV x)))

/-- `LD B, Vx` (R193): three digits at I, I + 1, I + 2. -/
def execLdB (x : Reg) (s : State) : Host.Outcome State Fault Refusal :=
  .next (s.storeOrFault s.base (bcdDigits (s.getV x)))

/-- `LD [I], Vx` (R194): V0 to Vx stored from I up; I is unchanged. -/
def execLdMemVx (x : Reg) (s : State) : Host.Outcome State Fault Refusal :=
  .next (s.storeOrFault s.base (s.block x))

/-- `LD Vx, [I]` (R195): V0 to Vx loaded from I up; I is unchanged. -/
def execLdVxMem (x : Reg) (s : State) : Host.Outcome State Fault Refusal :=
  .next (s.loadOrFault s.base (x.val + 1) (s.setBlock 0))

end Sys2Proof.Machine
end

