-- ==== Sys2Proof/Machine/TimersKeys.lean ====
section
/-! DEFINITION. Timer and key instructions (spec/45_timers_keys.md R220 to R226). KEYS does not change inside a step, so it is the sample of phase P1 (R121). -/

namespace Sys2Proof.Machine

/-- `LD Vx, DT` (R220): DT before this step's decrement. -/
def execLdVxDT (x : Reg) (s : State) : Host.Outcome State Fault Refusal :=
  .next (s.setV x s.dt)

/-- `LD DT, Vx` (R221): phase P6 of the same step then decrements it. -/
def execLdDTVx (x : Reg) (s : State) : Host.Outcome State Fault Refusal :=
  .next (s.setDt (s.getV x))

/-- `LD ST, Vx` (R222): phase P6 of the same step then decrements it. -/
def execLdSTVx (x : Reg) (s : State) : Host.Outcome State Fault Refusal :=
  .next (s.setSt (s.getV x))

/-- `SKP Vx` (R223): the key is the VALUE of Vx. -/
def execSkp (x : Reg) (s : State) : Host.Outcome State Fault Refusal :=
  .next (s.skipIf (keyHeld s.keys (s.getV x)))

/-- `SKNP Vx` (R224). -/
def execSknp (x : Reg) (s : State) : Host.Outcome State Fault Refusal :=
  .next (s.skipIf (!keyHeld s.keys (s.getV x)))

/-- `LD Vx, K` (R225): with no key held pc goes back to this instruction; else Vx is the highest key held. -/
def execLdVxK (x : Reg) (s : State) : Host.Outcome State Fault Refusal :=
  .next (match highestKey s.keys 16 with
    | none => s.setPc (s.pc - 2)
    | some k => s.setV x (BitVec.ofNat 8 k))

end Sys2Proof.Machine
end

