-- ==== Sys2Proof/Machine/Cycle.lean ====
section
/-! DEFINITION. The phases of a step (spec/40_step.md R120 to R129), for either value of TIMER_PER_STEP, and the placing of a word where the next fetch reads it. -/

namespace Sys2Proof.Machine

/-- Phase P1 (R121): DRAW is cleared. KEYS is its own sample, since nothing writes it inside a step. -/
def State.beginStep (s : State) : State := s.setDraw false

/-- The word two bytes make, high byte first (R63). -/
def wordOfList : List Byte → Word
  | [hi, lo] => wordOfBytes hi lo
  | _ => 0  -- a read of two bytes never reaches this line

/-- Phase P2 (R122): `MemRead(A, 2)` as a big-endian word, or the `info` of the fetch fault. -/
def State.fetch (s : State) : Except Word Word :=
  match s.memRead s.pc.toNat 2 with
  | .ok bs => .ok (wordOfList bs)
  | .error info => .error info

/-- One timer's decrement: by one, never below zero (R125). -/
def decTimer (b : Byte) : Byte := if b = 0 then 0 else b - 1

/-- Phase P6 (R125): both timers, in every step when `perStep` (TIMER_PER_STEP) is true, else in the steps whose
`tick60` input is set. -/
def State.timerPhase (perStep : Bool) (s : State) : State :=
  if perStep || s.tickIn then (s.setDt (decTimer s.dt)).setSt (decTimer s.st) else s

/-- R126: the word the next step would fetch is 0x0000; false when pc is above 0xFFE. -/
def State.nextWordZero (s : State) : Bool :=
  decide (s.pc.toNat ≤ 0xFFE) && decide (s.mem.read s.pc.toNat = 0) && decide (s.mem.read (s.pc.toNat + 1) = 0)

/-- Phase P7 (R126). -/
def State.endedPhase (s : State) : State := s.setEnded s.nextWordZero

/-- What follows phase P5: nothing when the instruction raised (R128), else phases P6 and P7. -/
def finishStep (perStep : Bool) (s : State) : State :=
  match s.fault.cause with
  | some _ => s
  | none => (s.timerPhase perStep).endedPhase

/-- The inputs of the next step: a fresh free byte and tick on the ports (R35; log 2, log 3). -/
def State.nextInput (s : State) : State :=
  { s with
    rndIn := Config.rndInput (s.stepNo + 1)
    tickIn := Config.tickInput (s.stepNo + 1)
    stepNo := s.stepNo + 1 }

/-- Phases P2 to P7 on the state that P1 leaves: a fetch fault leaves pc at A, an illegal word or a fault in the
instruction leaves it at A + 2 (R128). -/
def cycle (perStep : Bool) (s : State) : Host.Outcome State Fault Refusal :=
  match s.fetch with
  | .error info => .next (s.raiseAt s.pc .memoryOutOfRange info)
  | .ok w =>
    match decodeWord w with
    | .error _ => .next ((s.setPc (s.pc + 2)).raise .unknownOpcode w)
    | .ok i =>
      match exec i (s.setPc (s.pc + 2)) with
      | .next t => .next (finishStep perStep t)
      | .fault f => .fault f
      | .refused r => .refused r

/-- `Step` (R120), P0 first: on a faulted core nothing happens and the recorded fault is the answer (R129). -/
def stepWith (perStep : Bool) (s : State) : Host.Outcome State Fault Refusal :=
  match s.fault.cause with
  | some f => .fault f
  | none =>
    match cycle perStep s.beginStep with
    | .next t => .next t.nextInput
    | .fault f => .fault f
    | .refused r => .refused r

/-- A state whose next step fetches: the core is not faulted and pc is a fetch address. Any other state is given an
empty fault record and pc 0x200 (log 9). -/
def State.fetchable (s : State) : State :=
  if s.fault.cause = none ∧ s.pc.toNat ≤ 0xFFE then s
  else if s.pc.toNat ≤ 0xFFE then { s with fault := FaultRecord.clear }
  else { s with fault := FaultRecord.clear, pc := Config.progBase }

/-- The word stored, high byte first, at the address the next step fetches from. -/
def State.placeWord (s : State) (w : Word) : State :=
  s.fetchable.setMem (s.fetchable.mem.writeBytes s.fetchable.pc.toNat (bytesOfWord w))

end Sys2Proof.Machine
end

