-- ==== Sys2Proof/Machine/Step.lean ====
section
/-! DEFINITION. The one move of CORE, `Step` (spec/40_step.md R120), with TIMER_PER_STEP at its default, and the host's way to place an instruction. -/

namespace Sys2Proof.Machine

/-- `Step(rnd)` with rnd on the port `rndIn` (R120). A step that faults is a next state with FAULT written (R128); a step
of a core that has faulted is refused with the recorded fault (R129). -/
def step (s : State) : Host.Outcome State Fault Refusal := stepWith Config.timerPerStep s

/-- The instruction of `nbits` bits of `w` (bits above them 0) where the next step fetches it (log 9). -/
def State.withFetchWord (s : State) (nbits w : Nat) : State := s.placeWord (BitVec.ofNat 16 (w % 2 ^ nbits))

end Sys2Proof.Machine
end

