-- ==== Sys2Proof/Machine/Transactions.lean ====
section
/-! DEFINITION. The five transactions of spec/00_scope.md R8 and the port view of spec/10_state.md R39. Each is atomic; a run of CORE is a list of them, in the host's order (R69). -/

namespace Sys2Proof.Machine

/-- What `Observe` returns (R38): FB, the 16 registers, DT, ST, I, pc, SP, DRAW, and ENDED and FAULT. -/
structure Observation where
  fb : Framebuffer
  v : Vector Byte 16
  dt : Byte
  st : Byte
  i : Word
  pc : Word
  sp : BitVec 5
  draw : Bool
  ended : Bool
  fault : FaultRecord
  deriving DecidableEq, Repr

/-- `Observe()` (R38): a read, which changes nothing. -/
def State.observe (s : State) : Observation :=
  { fb := s.fb, v := s.v, dt := s.dt, st := s.st, i := s.i, pc := s.pc, sp := s.sp, draw := s.draw, ended := s.ended,
    fault := s.fault }

/-- `Load(image)` (R73): refused whole when the image is longer than 3584 bytes, else the bytes go to 0x200 upward. The
Boolean is the pass or fail report. No other state is touched (R74). -/
def State.load (s : State) (image : List Byte) : Bool × State :=
  if Config.maxImage < image.length then (false, s)
  else (true, s.setMem (s.mem.writeBytes Config.progBase.toNat image))

/-- `Reset()` (R280), with the inputs of the coming step drawn afresh (log 10). -/
def State.resetNow (_ : State) : State := State.reset

/-- The ports of one `Step(rnd)` driven: `rnd_in` and `tick60` (R39). -/
def State.withInput (s : State) (rnd : Byte) (tick : Bool) : State := { s with rndIn := rnd, tickIn := tick }

/-- The transactions (R8). -/
inductive Transaction where
  /-- R280 -/
  | reset
  /-- R73 -/
  | load (image : List Byte)
  /-- R31 -/
  | setKeys (mask : BitVec 16)
  /-- R120; `tick` is the `tick60` input, read only when TIMER_PER_STEP is false -/
  | step (rnd : Byte) (tick : Bool)
  /-- R38 -/
  | observe
  deriving DecidableEq, Repr

/-- What a transaction returns to its issuer (R8, R73, R120, R127). -/
inductive Report where
  /-- `Reset` and `SetKeys` return nothing -/
  | done
  /-- `Load`: pass or fail (R73) -/
  | loaded (pass : Bool)
  /-- `Step`: `Ok(ended)` (R127) -/
  | stepOk (ended : Bool)
  /-- `Step`: `Fault(cause)` (R127) -/
  | stepFault (cause : Fault)
  /-- `Observe` (R38) -/
  | seen (o : Observation)
  deriving DecidableEq, Repr

/-- The report of a step that ended in state `s`: `Ok(ended)`, or the fault the step recorded (R127). -/
def State.stepReport (s : State) : Report :=
  match s.fault.cause with
  | none => .stepOk s.ended
  | some f => .stepFault f

/-- One transaction, for either value of TIMER_PER_STEP. `none` only if an instruction had no meaning, and all have
theirs. A step of a faulted core changes nothing and returns the recorded fault (R129). -/
def transact (perStep : Bool) (s : State) : Transaction → Option (State × Report)
  | .reset => some (s.resetNow, .done)
  | .load image => some ((s.load image).2, .loaded (s.load image).1)
  | .setKeys mask => some (s.setKeys mask, .done)
  | .step rnd tick =>
    match stepWith perStep (s.withInput rnd tick) with
    | .next t => some (t, t.stepReport)
    | .fault f => some (s, .stepFault f)
    | .refused _ => none
  | .observe => some (s, .seen s.observe)

/-- A run: the transactions in order, and the state they leave. -/
def transactAll (perStep : Bool) : State → List Transaction → Option State
  | s, [] => some s
  | s, t :: ts =>
    match transact perStep s t with
    | some (s', _) => transactAll perStep s' ts
    | none => none

/-! ## The port view (R39) -/

/-- `load_we`, `load_addr`, `load_data`: one byte of `Load` (log 14). -/
def State.loadByte (s : State) (a : Addr) (b : Byte) : State := s.setMem (s.mem.write a.toNat b)

/-- `fb_raddr`, `fb_rdata`: the cell `row * 64 + col` (R39, R76). -/
def State.fbPort (s : State) (a : BitVec 11) : Bool := s.fb.get (Fin.ofNat 32 (a.toNat / 64)) (Fin.ofNat 64 (a.toNat % 64))

/-- `dbg_sel`, `dbg_data`: V0 to VF at 0 to 15, then I, pc, SP, DT, ST; the selectors above 20 name nothing (R39,
log 14). -/
def State.debugPort (s : State) (sel : BitVec 5) : Option Word :=
  if sel.toNat < 16 then some (zext16 (s.getV (Fin.ofNat 16 sel.toNat)))
  else match sel.toNat with
    | 16 => some s.i
    | 17 => some s.pc
    | 18 => some (zext16 s.sp)
    | 19 => some (zext16 s.dt)
    | 20 => some (zext16 s.st)
    | _ => none

end Sys2Proof.Machine
end

