-- ==== Sys2Proof/Safety.lean ====
section
/-! DEFINITION. The terms statements are written in: what a state is made of, what a step leaves unchanged, the machine's invariant (spec/10_state.md R40) and a safe run. -/

namespace Sys2Proof.Machine

/-- The next state of an outcome, if it is one. -/
def nextOf {σ φ ρ : Type} : Host.Outcome σ φ ρ → Option σ
  | .next t => some t
  | .fault _ => none
  | .refused _ => none

/-- The parts a state is made of (R20): each register, each stack entry, each byte of memory, each cell of the
framebuffer by itself; `inputs` are the model's own three fields. -/
inductive Part where
  | v (r : Reg)
  | i
  | pc
  | stack (k : Fin 16)
  | sp
  | dt
  | st
  | mem (a : Nat)
  | fb (row : Fin 32) (col : Fin 64)
  | keys
  | draw
  | ended
  | fault
  | inputs
  deriving DecidableEq, Repr

/-- A part reads the same in two states. -/
def Part.same (s t : State) : Part → Prop
  | .v r => t.getV r = s.getV r
  | .i => t.i = s.i
  | .pc => t.pc = s.pc
  | .stack k => t.stack[k] = s.stack[k]
  | .sp => t.sp = s.sp
  | .dt => t.dt = s.dt
  | .st => t.st = s.st
  | .mem a => t.mem.read a = s.mem.read a
  | .fb row col => t.fb.get row col = s.fb.get row col
  | .keys => t.keys = s.keys
  | .draw => t.draw = s.draw
  | .ended => t.ended = s.ended
  | .fault => t.fault = s.fault
  | .inputs => t.rndIn = s.rndIn ∧ t.tickIn = s.tickIn ∧ t.stepNo = s.stepNo

/-- The frame: every part that may not change reads the same. -/
def Frame (s t : State) (mayChange : Part → Prop) : Prop := ∀ p : Part, ¬ mayChange p → p.same s t

/-- The frame with the parts that may change listed. -/
def FrameBut (s t : State) (parts : List Part) : Prop := Frame s t (· ∈ parts)

/-- The fault record an executing instruction writes, and nothing else changed (R128, R249): cause, A = pc - 2, info. -/
def Raised (s : State) (f : Fault) (info : Word) : State :=
  { s with fault := { cause := some f, addr := s.pc - 2, info := info } }

/-- The word in memory at an address, high byte first (R63). -/
def wordAt (s : State) (a : Nat) : Word := BitVec.ofNat 16 ((s.mem.read a).toNat * 256 + (s.mem.read (a + 1)).toNat)

/-- The coming step executes `i`: no fault is recorded, pc is a fetch address, and the word there is `i`'s (R120). -/
def Executes (s : State) (i : Instr) : Prop :=
  s.fault.cause = none ∧ s.pc.toNat ≤ 0xFFE ∧ decodeWord (wordAt s s.pc.toNat) = .ok i

/-- An access that the step of `s` makes and whose range R66 checks: by the fetch (P2), or by the instruction fetched
(P5), up to the highest address `last`, without wrap (the rows of R241 for MemoryOutOfRange). -/
def AccessReaches (s : State) (last : Nat) : Prop :=
  (s.fault.cause = none ∧ last = s.pc.toNat + 1) ∨
  (∃ x y n, Executes s (.drw x y n) ∧ n ≠ 0 ∧ last = s.i.toNat + n.toNat - 1) ∨
  (∃ x, Executes s (.ldB x) ∧ last = s.i.toNat + 2) ∨
  (∃ x, Executes s (.ldMemVx x) ∧ last = s.i.toNat + x.val) ∨
  (∃ x, Executes s (.ldVxMem x) ∧ last = s.i.toNat + x.val)

/-- The state an instruction is executed on: DRAW cleared (P1), pc advanced by 2 (P3) (R120). -/
def entryState (s : State) : State := { s with draw := false, pc := s.pc + 2 }

/-- R211: the sprite of `n` rows at I, drawn at (x0, y0), has a set bit on the cell (row, col). -/
def SpriteCovers (s : State) (x0 y0 : Byte) (n : Nat) (row : Fin 32) (col : Fin 64) : Prop :=
  ∃ r c : Nat, r < n ∧ c < 8 ∧ row.val = (y0.toNat + r) % 32 ∧ col.val = (x0.toNat + c) % 64 ∧
    (s.mem.read (s.i.toNat + r)).getLsbD (7 - c) = true

/-- The core is running: no fault is recorded (R129). -/
def Safe (s : State) : Prop := s.fault.cause = none

/-- The fault record and the pc a fault leaves agree with R128 and R241. -/
def FaultConsistent (s : State) : Prop :=
  match s.fault.cause with
  | none => s.fault.addr = 0 ∧ s.fault.info = 0
  | some .unknownOpcode => s.pc = s.fault.addr + 2 ∧ decodeWord s.fault.info = .error (.unknown s.fault.info)
  | some .memoryOutOfRange => (s.pc = s.fault.addr ∨ s.pc = s.fault.addr + 2) ∧ 0xFFF < s.fault.info.toNat
  | some .stackOverflow => s.pc = s.fault.addr + 2 ∧ s.sp = 16 ∧ s.fault.info = 16
  | some .stackUnderflow => s.pc = s.fault.addr + 2 ∧ s.sp = 0 ∧ s.fault.info = 0

/-- R40: what holds in every state a run of transactions reaches. -/
structure State.Inv (s : State) : Prop where
  /-- MEM is in its canonical form and inside 0x000 to 0xFFF -/
  mem_wf : s.mem.wf = true
  /-- R40.1 -/
  sp_le : s.sp.toNat ≤ 16
  /-- R40.5 -/
  pc_le : s.pc.toNat ≤ 0x10FE
  /-- R40.6: a return address is A + 2 with A at most 0xFFE -/
  returns : ∀ k : Fin 16, k.val < s.sp.toNat → 2 ≤ (s.stack[k]).toNat ∧ (s.stack[k]).toNat ≤ 0x1000
  /-- R40.4, R213: a faulting step leaves DRAW 0 -/
  draw_off : ¬ Safe s → s.draw = false
  /-- R40.3 with R128 and R241 -/
  fault_ok : FaultConsistent s

/-- The states a run of transactions from reset reaches (R8, R40). -/
def Reachable (perStep : Bool) (s : State) : Prop := ∃ ts : List Transaction, transactAll perStep State.reset ts = some s

end Sys2Proof.Machine
end

