-- ==== Sys2Proof/Certificates/Slice0/Obligations.lean ====
section
/-! DEFINITION. The statements for the provers: what spec/'s rules say of each instruction, of the step, of the host's transactions and of the machine as a whole. -/

open Sys2Proof Sys2Proof.Machine

/-! ## Control flow (spec/41_flow.md). In every statement about `exec`, pc has been advanced past the instruction (R123). -/

/-- R140. -/
def Obligations.RetPopsTheReturnAddress : Prop :=
  decodeWord 0x00EE = .ok .ret ∧
  (∀ s : State, s.sp = 0 → exec .ret s = .next (Raised s .stackUnderflow 0)) ∧
  (∀ (s : State) (k : Fin 16), s.sp.toNat = k.val + 1 →
    ∃ t, exec .ret s = .next t ∧ t.sp.toNat = k.val ∧ t.pc = s.stack[k] ∧ FrameBut s t [.sp, .pc])

/-- R142. -/
def Obligations.CallPushesThePc : Prop :=
  (∀ nnn : Addr, decodeWord (BitVec.ofNat 16 (0x2000 + nnn.toNat)) = .ok (.call nnn)) ∧
  (∀ (s : State) (nnn : Addr), s.sp = 16 → exec (.call nnn) s = .next (Raised s .stackOverflow 16)) ∧
  (∀ (s : State) (nnn : Addr) (k : Fin 16), s.sp.toNat = k.val →
    ∃ t, exec (.call nnn) s = .next t ∧ t.stack[k] = s.pc ∧ t.sp.toNat = k.val + 1 ∧ t.pc.toNat = nnn.toNat ∧
      FrameBut s t [.stack k, .sp, .pc])

/-- R141, R147. -/
def Obligations.JumpsSetThePc : Prop :=
  (∀ nnn : Addr, decodeWord (BitVec.ofNat 16 (0x1000 + nnn.toNat)) = .ok (.jp nnn)) ∧
  (∀ nnn : Addr, decodeWord (BitVec.ofNat 16 (0xB000 + nnn.toNat)) = .ok (.jpV0 nnn)) ∧
  (∀ (s : State) (nnn : Addr), ∃ t, exec (.jp nnn) s = .next t ∧ t.pc.toNat = nnn.toNat ∧ FrameBut s t [.pc]) ∧
  (∀ (s : State) (nnn : Addr), ∃ t, exec (.jpV0 nnn) s = .next t ∧ t.pc.toNat = nnn.toNat + (s.getV 0).toNat ∧
    FrameBut s t [.pc])

/-- R143, R144, R145, R146: a skip adds 2 to the pc exactly on its condition; N of the register forms is ignored. -/
def Obligations.SkipsTestEquality : Prop :=
  (∀ (x : Reg) (kk : Byte),
    decodeWord (BitVec.ofNat 16 (0x3000 + 256 * x.val + kk.toNat)) = .ok (.seByte x kk) ∧
    decodeWord (BitVec.ofNat 16 (0x4000 + 256 * x.val + kk.toNat)) = .ok (.sneByte x kk)) ∧
  (∀ (x y : Reg) (n : Nibble),
    decodeWord (BitVec.ofNat 16 (0x5000 + 256 * x.val + 16 * y.val + n.toNat)) = .ok (.seReg x y n) ∧
    decodeWord (BitVec.ofNat 16 (0x9000 + 256 * x.val + 16 * y.val + n.toNat)) = .ok (.sneReg x y n)) ∧
  (∀ (s : State) (x : Reg) (kk : Byte), ∃ t, exec (.seByte x kk) s = .next t ∧
    t.pc = (if s.getV x = kk then s.pc + 2 else s.pc) ∧ FrameBut s t [.pc]) ∧
  (∀ (s : State) (x : Reg) (kk : Byte), ∃ t, exec (.sneByte x kk) s = .next t ∧
    t.pc = (if s.getV x = kk then s.pc else s.pc + 2) ∧ FrameBut s t [.pc]) ∧
  (∀ (s : State) (x y : Reg) (n : Nibble), ∃ t, exec (.seReg x y n) s = .next t ∧
    t.pc = (if s.getV x = s.getV y then s.pc + 2 else s.pc) ∧ FrameBut s t [.pc]) ∧
  (∀ (s : State) (x y : Reg) (n : Nibble), ∃ t, exec (.sneReg x y n) s = .next t ∧
    t.pc = (if s.getV x = s.getV y then s.pc else s.pc + 2) ∧ FrameBut s t [.pc])

/-- A `CALL` and the `RET` that ends the subroutine, wherever the `RET` stands: pc is two bytes past the `CALL` (the pc
`CALL` found), SP is as before, and only the dead stack entry differs (R140, R142). -/
def Obligations.RetUndoesCall : Prop :=
  ∀ (s t : State) (nnn : Addr) (k : Fin 16) (p : Word), s.sp.toNat = k.val → exec (.call nnn) s = .next t →
    ∃ u, exec .ret { t with pc := p } = .next u ∧ u.pc = s.pc ∧ u.sp = s.sp ∧ FrameBut s u [.stack k]

/-! ## Register load, arithmetic, logic, shift, random (spec/42_alu.md) -/

/-- R161, R162, R163. -/
def Obligations.RegisterLoadsAndAddByte : Prop :=
  (∀ (x : Reg) (kk : Byte),
    decodeWord (BitVec.ofNat 16 (0x6000 + 256 * x.val + kk.toNat)) = .ok (.ldByte x kk) ∧
    decodeWord (BitVec.ofNat 16 (0x7000 + 256 * x.val + kk.toNat)) = .ok (.addByte x kk)) ∧
  (∀ x y : Reg, decodeWord (BitVec.ofNat 16 (0x8000 + 256 * x.val + 16 * y.val)) = .ok (.ldReg x y)) ∧
  (∀ (s : State) (x : Reg) (kk : Byte), ∃ t, exec (.ldByte x kk) s = .next t ∧ t.getV x = kk ∧ FrameBut s t [.v x]) ∧
  (∀ (s : State) (x : Reg) (kk : Byte), ∃ t, exec (.addByte x kk) s = .next t ∧
    (t.getV x).toNat = ((s.getV x).toNat + kk.toNat) % 256 ∧ FrameBut s t [.v x]) ∧
  (∀ (s : State) (x y : Reg), ∃ t, exec (.ldReg x y) s = .next t ∧ t.getV x = s.getV y ∧ FrameBut s t [.v x])

/-- R164, R165, R166: bit by bit, and no flag. -/
def Obligations.LogicIsBitwiseWithoutFlag : Prop :=
  (∀ x y : Reg,
    decodeWord (BitVec.ofNat 16 (0x8001 + 256 * x.val + 16 * y.val)) = .ok (.orReg x y) ∧
    decodeWord (BitVec.ofNat 16 (0x8002 + 256 * x.val + 16 * y.val)) = .ok (.andReg x y) ∧
    decodeWord (BitVec.ofNat 16 (0x8003 + 256 * x.val + 16 * y.val)) = .ok (.xorReg x y)) ∧
  (∀ (s : State) (x y : Reg), ∃ t, exec (.orReg x y) s = .next t ∧ FrameBut s t [.v x] ∧
    ∀ k, (t.getV x).getLsbD k = ((s.getV x).getLsbD k || (s.getV y).getLsbD k)) ∧
  (∀ (s : State) (x y : Reg), ∃ t, exec (.andReg x y) s = .next t ∧ FrameBut s t [.v x] ∧
    ∀ k, (t.getV x).getLsbD k = ((s.getV x).getLsbD k && (s.getV y).getLsbD k)) ∧
  (∀ (s : State) (x y : Reg), ∃ t, exec (.xorReg x y) s = .next t ∧ FrameBut s t [.v x] ∧
    ∀ k, (t.getV x).getLsbD k = ((s.getV x).getLsbD k != (s.getV y).getLsbD k))

/-- R167: the low byte of the sum in Vx; the carry in VF unless x is 0xF, when the result stays. -/
def Obligations.AddSetsCarryThenResult : Prop :=
  (∀ x y : Reg, decodeWord (BitVec.ofNat 16 (0x8004 + 256 * x.val + 16 * y.val)) = .ok (.addReg x y)) ∧
  (∀ (s : State) (x y : Reg), ∃ t, exec (.addReg x y) s = .next t ∧
    (t.getV x).toNat = ((s.getV x).toNat + (s.getV y).toNat) % 256 ∧
    (x ≠ 15 → t.getV 15 = if (s.getV x).toNat + (s.getV y).toNat > 255 then 1 else 0) ∧
    FrameBut s t [.v x, .v 15])

/-- R168: Vx - Vy; VF is 1 exactly when Vx > Vy, so 0 on equality. -/
def Obligations.SubSetsStrictlyGreaterThenResult : Prop :=
  (∀ x y : Reg, decodeWord (BitVec.ofNat 16 (0x8005 + 256 * x.val + 16 * y.val)) = .ok (.subReg x y)) ∧
  (∀ (s : State) (x y : Reg), ∃ t, exec (.subReg x y) s = .next t ∧
    (t.getV x).toNat = ((s.getV x).toNat + 256 - (s.getV y).toNat) % 256 ∧
    (x ≠ 15 → t.getV 15 = if (s.getV x).toNat > (s.getV y).toNat then 1 else 0) ∧
    FrameBut s t [.v x, .v 15])

/-- R170: Vy - Vx; VF is 1 exactly when Vy > Vx. -/
def Obligations.SubnSetsStrictlyGreaterThenResult : Prop :=
  (∀ x y : Reg, decodeWord (BitVec.ofNat 16 (0x8007 + 256 * x.val + 16 * y.val)) = .ok (.subnReg x y)) ∧
  (∀ (s : State) (x y : Reg), ∃ t, exec (.subnReg x y) s = .next t ∧
    (t.getV x).toNat = ((s.getV y).toNat + 256 - (s.getV x).toNat) % 256 ∧
    (x ≠ 15 → t.getV 15 = if (s.getV y).toNat > (s.getV x).toNat then 1 else 0) ∧
    FrameBut s t [.v x, .v 15])

/-- R169, R171: shifts in place by one, VF the bit lost, Y ignored. -/
def Obligations.ShiftsByOneInPlace : Prop :=
  (∀ x y : Reg,
    decodeWord (BitVec.ofNat 16 (0x8006 + 256 * x.val + 16 * y.val)) = .ok (.shr x y) ∧
    decodeWord (BitVec.ofNat 16 (0x800E + 256 * x.val + 16 * y.val)) = .ok (.shl x y)) ∧
  (∀ (s : State) (x y : Reg), ∃ t, exec (.shr x y) s = .next t ∧ (t.getV x).toNat = (s.getV x).toNat / 2 ∧
    (x ≠ 15 → (t.getV 15).toNat = (s.getV x).toNat % 2) ∧ FrameBut s t [.v x, .v 15]) ∧
  (∀ (s : State) (x y : Reg), ∃ t, exec (.shl x y) s = .next t ∧ (t.getV x).toNat = 2 * (s.getV x).toNat % 256 ∧
    (x ≠ 15 → (t.getV 15).toNat = (s.getV x).toNat / 128) ∧ FrameBut s t [.v x, .v 15])

/-- R172: the step's free byte under the mask; with the mask 0xFF every byte is reached, with 0x00 only 0. -/
def Obligations.RndMasksTheFreeByte : Prop :=
  (∀ (x : Reg) (kk : Byte), decodeWord (BitVec.ofNat 16 (0xC000 + 256 * x.val + kk.toNat)) = .ok (.rnd x kk)) ∧
  (∀ (s : State) (x : Reg) (kk : Byte), ∃ t, exec (.rnd x kk) s = .next t ∧ t.getV x = s.rndIn &&& kk ∧
    FrameBut s t [.v x]) ∧
  (∀ (s : State) (x : Reg) (b : Byte), ∃ (c : Byte) (t : State),
    exec (.rnd x 0xFF) { s with rndIn := c } = .next t ∧ t.getV x = b) ∧
  (∀ (s t : State) (x : Reg), exec (.rnd x 0) s = .next t → t.getV x = 0)

/-! ## Index register, loads and stores (spec/43_index_memory.md) -/

/-- R190, R191, R192. -/
def Obligations.IndexRegisterInstructions : Prop :=
  (∀ nnn : Addr, decodeWord (BitVec.ofNat 16 (0xA000 + nnn.toNat)) = .ok (.ldI nnn)) ∧
  (∀ x : Reg, decodeWord (BitVec.ofNat 16 (0xF01E + 256 * x.val)) = .ok (.addI x) ∧
    decodeWord (BitVec.ofNat 16 (0xF029 + 256 * x.val)) = .ok (.ldF x)) ∧
  (∀ (s : State) (nnn : Addr), ∃ t, exec (.ldI nnn) s = .next t ∧ t.i.toNat = nnn.toNat ∧ FrameBut s t [.i]) ∧
  (∀ (s : State) (x : Reg), ∃ t, exec (.addI x) s = .next t ∧
    t.i.toNat = (s.i.toNat + (s.getV x).toNat) % 65536 ∧ FrameBut s t [.i]) ∧
  (∀ (s : State) (x : Reg), ∃ t, exec (.ldF x) s = .next t ∧ t.i.toNat = 5 * (s.getV x).toNat ∧ FrameBut s t [.i])

/-- R193: the three decimal digits at I, I + 1, I + 2, or MemoryOutOfRange with nothing written. -/
def Obligations.BcdStoresThreeDigits : Prop :=
  (∀ x : Reg, decodeWord (BitVec.ofNat 16 (0xF033 + 256 * x.val)) = .ok (.ldB x)) ∧
  (∀ (s : State) (x : Reg), s.i.toNat + 2 ≤ 0xFFF → ∃ t, exec (.ldB x) s = .next t ∧
    (t.mem.read s.i.toNat).toNat = (s.getV x).toNat / 100 ∧
    (t.mem.read (s.i.toNat + 1)).toNat = (s.getV x).toNat / 10 % 10 ∧
    (t.mem.read (s.i.toNat + 2)).toNat = (s.getV x).toNat % 10 ∧
    Frame s t (fun p => ∃ k, k ≤ 2 ∧ p = .mem (s.i.toNat + k))) ∧
  (∀ (s : State) (x : Reg), 0xFFF < s.i.toNat + 2 →
    exec (.ldB x) s = .next (Raised s .memoryOutOfRange (BitVec.ofNat 16 (min (s.i.toNat + 2) 0xFFFF))))

/-- R194: V0 to Vx at I to I + x, I unchanged, or MemoryOutOfRange with nothing written. -/
def Obligations.BlockStoreFromI : Prop :=
  (∀ x : Reg, decodeWord (BitVec.ofNat 16 (0xF055 + 256 * x.val)) = .ok (.ldMemVx x)) ∧
  (∀ (s : State) (x : Reg), s.i.toNat + x.val ≤ 0xFFF → ∃ t, exec (.ldMemVx x) s = .next t ∧
    (∀ k : Reg, k ≤ x → t.mem.read (s.i.toNat + k.val) = s.getV k) ∧
    Frame s t (fun p => ∃ k : Reg, k ≤ x ∧ p = .mem (s.i.toNat + k.val))) ∧
  (∀ (s : State) (x : Reg), 0xFFF < s.i.toNat + x.val →
    exec (.ldMemVx x) s = .next (Raised s .memoryOutOfRange (BitVec.ofNat 16 (min (s.i.toNat + x.val) 0xFFFF))))

/-- R195: V0 to Vx from I to I + x, I unchanged, or MemoryOutOfRange with nothing loaded. -/
def Obligations.BlockLoadFromI : Prop :=
  (∀ x : Reg, decodeWord (BitVec.ofNat 16 (0xF065 + 256 * x.val)) = .ok (.ldVxMem x)) ∧
  (∀ (s : State) (x : Reg), s.i.toNat + x.val ≤ 0xFFF → ∃ t, exec (.ldVxMem x) s = .next t ∧
    (∀ k : Reg, k ≤ x → t.getV k = s.mem.read (s.i.toNat + k.val)) ∧
    Frame s t (fun p => ∃ k : Reg, k ≤ x ∧ p = .v k)) ∧
  (∀ (s : State) (x : Reg), 0xFFF < s.i.toNat + x.val →
    exec (.ldVxMem x) s = .next (Raised s .memoryOutOfRange (BitVec.ofNat 16 (min (s.i.toNat + x.val) 0xFFFF))))

/-- A block stored by `LD [I], Vx` is what `LD Vx, [I]` brings back, whatever the registers became in between (R194,
R195). -/
def Obligations.BlockLoadRestoresBlockStore : Prop :=
  ∀ (s t : State) (x : Reg) (v : Vector Byte 16), s.i.toNat + x.val ≤ 0xFFF → exec (.ldMemVx x) s = .next t →
    ∃ u, exec (.ldVxMem x) { t with v := v } = .next u ∧ ∀ k : Reg, u.getV k = if k ≤ x then s.getV k else v[k]

/-! ## Display (spec/44_display.md) -/

/-- R210. -/
def Obligations.ClsClearsEveryCell : Prop :=
  decodeWord 0x00E0 = .ok .cls ∧
  ∀ s : State, ∃ t, exec .cls s = .next t ∧ (∀ row col, t.fb.get row col = false) ∧
    Frame s t (fun p => ∃ row col, p = .fb row col)

/-- R211: the covered cells flip and no other, VF says whether one of them was set, DRAW is set; with a sprite byte above
0xFFF, MemoryOutOfRange and nothing else. -/
def Obligations.DrwFlipsCoveredCells : Prop :=
  (∀ (x y : Reg) (n : Nibble),
    decodeWord (BitVec.ofNat 16 (0xD000 + 256 * x.val + 16 * y.val + n.toNat)) = .ok (.drw x y n)) ∧
  (∀ (s : State) (x y : Reg) (n : Nibble), n = 0 ∨ s.i.toNat + n.toNat - 1 ≤ 0xFFF →
    ∃ t, exec (.drw x y n) s = .next t ∧
      (∀ row col, t.fb.get row col ≠ s.fb.get row col ↔ SpriteCovers s (s.getV x) (s.getV y) n.toNat row col) ∧
      ((∃ row col, SpriteCovers s (s.getV x) (s.getV y) n.toNat row col ∧ s.fb.get row col = true) → t.getV 15 = 1) ∧
      ((¬ ∃ row col, SpriteCovers s (s.getV x) (s.getV y) n.toNat row col ∧ s.fb.get row col = true) →
        t.getV 15 = 0) ∧
      t.draw = true ∧ Frame s t (fun p => p = .v 15 ∨ p = .draw ∨ ∃ row col, p = .fb row col)) ∧
  (∀ (s : State) (x y : Reg) (n : Nibble), n ≠ 0 → 0xFFF < s.i.toNat + n.toNat - 1 →
    exec (.drw x y n) s =
      .next (Raised s .memoryOutOfRange (BitVec.ofNat 16 (min (s.i.toNat + n.toNat - 1) 0xFFFF))))

/-- Drawing the same sprite at the same place twice restores the framebuffer, and from a cleared framebuffer the second
draw's VF is 1 exactly when the sprite has a set bit (R211; the source's erase-collision example). -/
def Obligations.DrawingTwiceErases : Prop :=
  ∀ (s t : State) (x y : Reg) (n : Nibble), n = 0 ∨ s.i.toNat + n.toNat - 1 ≤ 0xFFF →
    exec (.drw x y n) s = .next t → t.getV x = s.getV x → t.getV y = s.getV y →
    ∃ u, exec (.drw x y n) t = .next u ∧ (∀ row col, u.fb.get row col = s.fb.get row col) ∧
      ((∀ row col, s.fb.get row col = false) →
        (u.getV 15 = 1 ↔ ∃ r c, r < n.toNat ∧ c < 8 ∧ (s.mem.read (s.i.toNat + r)).getLsbD c = true))

/-! ## Timers and keys (spec/45_timers_keys.md) -/

/-- R220, R221, R222: the instruction's own effect, and what the same step's decrement leaves. The whole-step clauses are
the inference the spec marks in R221, "derived: from 40_step.md rule R125", and rest on TIMER_PER_STEP at its default
(log 4). -/
def Obligations.TimerMovesAndTheirStep : Prop :=
  (∀ x : Reg, decodeWord (BitVec.ofNat 16 (0xF007 + 256 * x.val)) = .ok (.ldVxDT x) ∧
    decodeWord (BitVec.ofNat 16 (0xF015 + 256 * x.val)) = .ok (.ldDTVx x) ∧
    decodeWord (BitVec.ofNat 16 (0xF018 + 256 * x.val)) = .ok (.ldSTVx x)) ∧
  (∀ (s : State) (x : Reg), ∃ t, exec (.ldVxDT x) s = .next t ∧ t.getV x = s.dt ∧ FrameBut s t [.v x]) ∧
  (∀ (s : State) (x : Reg), ∃ t, exec (.ldDTVx x) s = .next t ∧ t.dt = s.getV x ∧ FrameBut s t [.dt]) ∧
  (∀ (s : State) (x : Reg), ∃ t, exec (.ldSTVx x) s = .next t ∧ t.st = s.getV x ∧ FrameBut s t [.st]) ∧
  (∀ (s : State) (x : Reg), Executes s (.ldVxDT x) →
    ∃ t, step s = .next t ∧ t.getV x = s.dt ∧ t.dt.toNat = s.dt.toNat - 1) ∧
  (∀ (s : State) (x : Reg), Executes s (.ldDTVx x) → ∃ t, step s = .next t ∧ t.dt.toNat = (s.getV x).toNat - 1) ∧
  (∀ (s : State) (x : Reg), Executes s (.ldSTVx x) → ∃ t, step s = .next t ∧ t.st.toNat = (s.getV x).toNat - 1)

/-- R223, R224: the key is the value of Vx, and a value above 15 names no key. -/
def Obligations.KeySkipsTestTheLatch : Prop :=
  (∀ x : Reg, decodeWord (BitVec.ofNat 16 (0xE09E + 256 * x.val)) = .ok (.skp x) ∧
    decodeWord (BitVec.ofNat 16 (0xE0A1 + 256 * x.val)) = .ok (.sknp x)) ∧
  (∀ (s : State) (x : Reg), ∃ t, exec (.skp x) s = .next t ∧ FrameBut s t [.pc] ∧
    t.pc = if (s.getV x).toNat ≤ 15 ∧ s.keys.getLsbD (s.getV x).toNat = true then s.pc + 2 else s.pc) ∧
  (∀ (s : State) (x : Reg), ∃ t, exec (.sknp x) s = .next t ∧ FrameBut s t [.pc] ∧
    t.pc = if (s.getV x).toNat ≤ 15 ∧ s.keys.getLsbD (s.getV x).toNat = true then s.pc else s.pc + 2)

/-- R225: blocked, pc goes back by 2 and nothing else changes; otherwise Vx is the highest key held. -/
def Obligations.KeyWaitTakesTheHighestKey : Prop :=
  (∀ x : Reg, decodeWord (BitVec.ofNat 16 (0xF00A + 256 * x.val)) = .ok (.ldVxK x)) ∧
  (∀ (s : State) (x : Reg), s.keys = 0 → ∃ t, exec (.ldVxK x) s = .next t ∧ t.pc = s.pc - 2 ∧ FrameBut s t [.pc]) ∧
  (∀ (s : State) (x : Reg), s.keys ≠ 0 → ∃ (t : State) (k : Fin 16), exec (.ldVxK x) s = .next t ∧
    (t.getV x).toNat = k.val ∧ s.keys.getLsbD k.val = true ∧ (∀ j : Fin 16, k < j → s.keys.getLsbD j.val = false) ∧
    FrameBut s t [.v x])

/-- R225 and R289: with no key held a key-wait stands still for any number of steps, each of which counts both timers
down, leaves DRAW and ENDED 0, and has the same instruction before it again. It rests on the model's choice that the latch
stands still in a run of `core` (log 6) and on TIMER_PER_STEP at its default (log 4). -/
def Obligations.BlockedKeyWaitStandsStill : Prop :=
  ∀ (n : Nat) (s : State) (x : Reg), Executes s (.ldVxK x) → s.keys = 0 →
    ∃ t, Host.Core.run Sys2Proof.core n s = .next t ∧ t.dt.toNat = s.dt.toNat - n ∧ t.st.toNat = s.st.toNat - n ∧
      Executes t (.ldVxK x) ∧ (n ≠ 0 → t.draw = false ∧ t.ended = false) ∧
      FrameBut s t [.dt, .st, .draw, .ended, .inputs]

/-! ## Decoding (spec/30_encoding.md) -/

/-- Decoding the word, or the bytes, of any instruction gives it back, with every operand at every value. -/
def Obligations.DecodeOfEncode : Prop :=
  ∀ i : Instr, decodeWord (encodeWord i) = .ok i ∧ ∀ rest, decode (encode i ++ rest) = .ok (i, rest)

/-- A word that decodes is the word of what it decodes to: no bit of a legal word is dropped (R103). -/
def Obligations.EncodeOfDecode : Prop :=
  ∀ (w : Word) (i : Instr), decodeWord w = .ok i → encodeWord i = w

/-- R100: the 34 rows do not overlap, and a word decodes exactly when it matches a row, to an instruction of that
row. -/
def Obligations.DecodeFollowsTheOpcodeTable : Prop :=
  opcodeTable.length = 34 ∧
  (∀ (w : Word) (m : String) (mask pattern : Word), (m, mask, pattern) ∈ opcodeTable → w &&& mask = pattern →
    ∃ i, decodeWord w = .ok i ∧ i.mnemonic = m) ∧
  (∀ (w : Word) (i : Instr), decodeWord w = .ok i →
    ∃ mask pattern, (i.mnemonic, mask, pattern) ∈ opcodeTable ∧ w &&& mask = pattern) ∧
  (∀ (w : Word) (r r' : String × Word × Word), r ∈ opcodeTable → r' ∈ opcodeTable → w &&& r.2.1 = r.2.2 →
    w &&& r'.2.1 = r'.2.2 → r = r')

/-- R101: the illegal words are exactly the four families. -/
def Obligations.IllegalWordsAreTheSpecs : Prop :=
  ∀ w : Word, decodeWord w = .error (.unknown w) ↔
    (w.toNat / 4096 = 0 ∧ w.toNat ≠ 0x00E0 ∧ w.toNat ≠ 0x00EE) ∨
    (w.toNat / 4096 = 8 ∧ w.toNat % 16 ∈ [8, 9, 0xA, 0xB, 0xC, 0xD, 0xF]) ∨
    (w.toNat / 4096 = 0xE ∧ w.toNat % 256 ∉ [0x9E, 0xA1]) ∨
    (w.toNat / 4096 = 0xF ∧ w.toNat % 256 ∉ [0x07, 0x0A, 0x15, 0x18, 0x1E, 0x29, 0x33, 0x55, 0x65])

/-- Words written out from the spec's encodings, one of each format (R93), and the bytes as memory holds them (R63). -/
def Obligations.SpecWordsDecode : Prop :=
  decodeWord 0x00E0 = .ok .cls ∧ decodeWord 0x1ABC = .ok (.jp 0xABC) ∧ decodeWord 0x6A2F = .ok (.ldByte 0xA 0x2F) ∧
  decodeWord 0x512F = .ok (.seReg 1 2 0xF) ∧ decodeWord 0x8126 = .ok (.shr 1 2) ∧
  decodeWord 0xD7A5 = .ok (.drw 7 0xA 5) ∧ decodeWord 0xE19E = .ok (.skp 1) ∧ decodeWord 0xF265 = .ok (.ldVxMem 2) ∧
  decodeWord 0x0000 = .error (.unknown 0x0000) ∧ decode [0x23, 0x45, 0x67] = .ok (.call 0x345, [0x67])

/-! ## The step (spec/40_step.md) -/

/-- R120: when the word at pc decodes to `i`, the step is `exec i` on the entry state, then, if nothing was raised, both
timers' decrement and the ended report. The step adds one thing of the model's own: fresh inputs on the ports
(log 2, log 3). -/
def Obligations.StepRunsTheDecodedInstruction : Prop :=
  ∀ (s t : State) (i : Instr), Executes s i → exec i (entryState s) = .next t →
    ∃ u, step s = .next u ∧ FrameBut t u [.dt, .st, .ended, .inputs] ∧
      (t.fault.cause ≠ none → u.dt = t.dt ∧ u.st = t.st ∧ u.ended = t.ended) ∧
      (t.fault.cause = none → u.dt.toNat = t.dt.toNat - 1 ∧ u.st.toNat = t.st.toNat - 1 ∧
        (u.ended = true ↔ t.pc.toNat ≤ 0xFFE ∧ wordAt t t.pc.toNat = 0))

/-- Every step of a core with no fault recorded answers a next state, for either value of TIMER_PER_STEP: no word and no
data ends a run outside the spec's fault record. -/
def Obligations.UnfaultedStepAlwaysAnswers : Prop :=
  ∀ (perStep : Bool) (s : State), s.fault.cause = none → ∃ t, stepWith perStep s = .next t

/-- R122, R128, R250: what a faulting step leaves, for the three places it can fault: in the fetch, in the decoding, in
the instruction. -/
def Obligations.FaultingStepLeavesOnlyTheRecord : Prop :=
  (∀ s : State, s.fault.cause = none → 0xFFE < s.pc.toNat →
    ∃ t, step s = .next t ∧ t.draw = false ∧
      t.fault = { cause := some .memoryOutOfRange, addr := s.pc, info := BitVec.ofNat 16 (min (s.pc.toNat + 1) 0xFFFF) } ∧
      FrameBut s t [.draw, .fault, .inputs]) ∧
  (∀ s : State, s.fault.cause = none → s.pc.toNat ≤ 0xFFE → (∀ i, decodeWord (wordAt s s.pc.toNat) ≠ .ok i) →
    ∃ t, step s = .next t ∧ t.pc = s.pc + 2 ∧ t.draw = false ∧
      t.fault = { cause := some .unknownOpcode, addr := s.pc, info := wordAt s s.pc.toNat } ∧
      FrameBut s t [.pc, .draw, .fault, .inputs]) ∧
  (∀ (s t : State) (i : Instr), Executes s i → step s = .next t → t.fault.cause ≠ none →
    t.pc = s.pc + 2 ∧ t.draw = false ∧ FrameBut s t [.pc, .draw, .fault, .inputs] ∧
    ((i = .ret ∧ s.sp = 0 ∧ t.fault = { cause := some .stackUnderflow, addr := s.pc, info := 0 }) ∨
     ((∃ nnn, i = .call nnn) ∧ s.sp = 16 ∧ t.fault = { cause := some .stackOverflow, addr := s.pc, info := 16 }) ∨
     ∃ last : Nat, 0xFFF < last ∧
      t.fault = { cause := some .memoryOutOfRange, addr := s.pc, info := BitVec.ofNat 16 (min last 0xFFFF) } ∧
      ((∃ x y n, i = .drw x y n ∧ n ≠ 0 ∧ last = s.i.toNat + n.toNat - 1) ∨ (∃ x, i = .ldB x ∧ last = s.i.toNat + 2) ∨
       (∃ x, i = .ldMemVx x ∧ last = s.i.toNat + x.val) ∨ ∃ x, i = .ldVxMem x ∧ last = s.i.toNat + x.val)))

/-- R241: which step records which cause, exactly, with its info; the codes are 1 to 4. That no other instruction faults
is the inference the spec marks there: "No other instruction can fault ... derived: from the rules of files 41 to
45". -/
def Obligations.FaultCausesExactly : Prop :=
  (Fault.code .unknownOpcode = 1 ∧ Fault.code .memoryOutOfRange = 2 ∧ Fault.code .stackOverflow = 3 ∧
    Fault.code .stackUnderflow = 4 ∧ FaultRecord.clear.code = 0) ∧
  ∀ s t : State, s.fault = FaultRecord.clear → step s = .next t →
    (t.fault.cause = none → t.fault = FaultRecord.clear) ∧
    (t.fault.cause ≠ none → t.fault.addr = s.pc) ∧
    (t.fault.cause = some .unknownOpcode ↔
      s.pc.toNat ≤ 0xFFE ∧ decodeWord (wordAt s s.pc.toNat) = .error (.unknown (wordAt s s.pc.toNat))) ∧
    (t.fault.cause = some .unknownOpcode → t.fault.info = wordAt s s.pc.toNat) ∧
    (t.fault.cause = some .memoryOutOfRange ↔ ∃ last : Nat, 0xFFF < last ∧ AccessReaches s last) ∧
    (∀ last : Nat, 0xFFF < last → AccessReaches s last → t.fault.info = BitVec.ofNat 16 (min last 0xFFFF)) ∧
    (t.fault.cause = some .stackOverflow ↔ s.sp = 16 ∧ ∃ nnn, Executes s (.call nnn)) ∧
    (t.fault.cause = some .stackOverflow → t.fault.info = 16) ∧
    (t.fault.cause = some .stackUnderflow ↔ s.sp = 0 ∧ Executes s .ret) ∧
    (t.fault.cause = some .stackUnderflow → t.fault.info = 0)

/-- R129: on a faulted core a step is refused: the recorded fault is answered again, nothing changes. -/
def Obligations.FaultedCoreRefusesSteps : Prop :=
  ∀ (perStep : Bool) (s : State) (f : Fault) (rnd : Byte) (tick : Bool), s.fault.cause = some f →
    stepWith perStep s = .fault f ∧ transact perStep s (.step rnd tick) = some (s, .stepFault f)

/-- R120, R127: the `Step(rnd)` transaction of a running core is the step with that byte and tick on its inputs, and
reports `Ok(ended)` or the fault the step recorded; `rnd` is the byte a `RND` of the step uses. -/
def Obligations.StepTransactionReportsTheStep : Prop :=
  (∀ (s : State) (rnd : Byte) (tick : Bool), (s.withInput rnd tick).rndIn = rnd ∧
    (s.withInput rnd tick).tickIn = tick ∧ FrameBut s (s.withInput rnd tick) [.inputs]) ∧
  (∀ (perStep : Bool) (s : State) (rnd : Byte) (tick : Bool), s.fault.cause = none →
    ∃ t, stepWith perStep (s.withInput rnd tick) = .next t ∧
      (t.fault.cause = none → transact perStep s (.step rnd tick) = some (t, .stepOk t.ended)) ∧
      (∀ f, t.fault.cause = some f → transact perStep s (.step rnd tick) = some (t, .stepFault f))) ∧
  (∀ (perStep : Bool) (s : State) (rnd : Byte) (tick : Bool) (x : Reg) (kk : Byte), Executes s (.rnd x kk) →
    ∃ t, transact perStep s (.step rnd tick) = some (t, .stepOk t.ended) ∧ t.getV x = rnd &&& kk)

/-- R251: no run without `Reset` clears a fault, and from a faulted core it changes the latch only if it holds a
`SetKeys`, and of memory only the bytes that a `Load` in it places; `Reset` restarts. -/
def Obligations.OnlyResetClearsAFault : Prop :=
  ∀ (perStep : Bool) (s : State) (ts : List Transaction), s.fault.cause ≠ none →
    (.reset ∉ ts → ∃ s', transactAll perStep s ts = some s' ∧ s'.fault = s.fault ∧
      Frame s s' (fun p => (p = .keys ∧ ∃ mask, .setKeys mask ∈ ts) ∨
        ∃ (image : List Byte) (k : Nat), .load image ∈ ts ∧ image.length ≤ 3584 ∧ k < image.length ∧
          p = .mem (Config.progBase.toNat + k))) ∧
    transact perStep s .reset = some (State.reset, .done) ∧ State.reset.fault = FaultRecord.clear

/-- R125: phase P6 sees the value the instruction left; it happens in every step that returns `Ok` (or, with
TIMER_PER_STEP false, in those whose tick is set) and in no step that faults. -/
def Obligations.TimerEngineRunsAfterTheInstruction : Prop :=
  ∀ (perStep : Bool) (s t u : State) (i : Instr), Executes s i → exec i (entryState s) = .next u →
    stepWith perStep s = .next t →
    (t.fault.cause = none → perStep = true ∨ s.tickIn = true →
      t.dt.toNat = u.dt.toNat - 1 ∧ t.st.toNat = u.st.toNat - 1) ∧
    (t.fault.cause = none → perStep = false → s.tickIn = false → t.dt = u.dt ∧ t.st = u.st) ∧
    (t.fault.cause ≠ none → t.dt = s.dt ∧ t.st = s.st)

/-- R27, R28: a timer goes down by exactly one in a step that finds it nonzero, never below zero, and nothing but the
instruction that sets it makes it nonzero. -/
def Obligations.TimersOnlyCountDown : Prop :=
  ∀ s t : State, step s = .next t → t.fault.cause = none →
    ((∀ x, ¬ Executes s (.ldDTVx x)) → t.dt.toNat = s.dt.toNat - 1) ∧
    ((∀ x, ¬ Executes s (.ldSTVx x)) → t.st.toNat = s.st.toNat - 1)

/-- R126: the ended report of a successful step, on the state the step leaves. -/
def Obligations.EndedReportLooksAtTheNextWord : Prop :=
  ∀ s t : State, step s = .next t → t.fault.cause = none →
    (t.ended = true ↔ t.pc.toNat ≤ 0xFFE ∧ t.mem.read t.pc.toNat = 0 ∧ t.mem.read (t.pc.toNat + 1) = 0)

/-- R213: DRAW is 1 after a step exactly when that step executed `DRW` without faulting, and 0 after reset. -/
def Obligations.DrawFlagSaysDrwRan : Prop :=
  State.reset.draw = false ∧
  ∀ s t : State, step s = .next t → (t.draw = true ↔ t.fault.cause = none ∧ ∃ x y n, Executes s (.drw x y n))

/-- R72: a word stored by `LD [I], Vx` over the next instruction is what the next step fetches. -/
def Obligations.StoredWordIsFetchedNext : Prop :=
  ∀ (s : State) (x : Reg), Executes s (.ldMemVx x) → 1 ≤ x.val → s.i = s.pc + 2 → s.i.toNat + x.val ≤ 0xFFF →
    ∃ t, step s = .next t ∧ t.pc = s.i ∧ wordAt t t.pc.toNat = BitVec.ofNat 16 ((s.getV 0).toNat * 256 + (s.getV 1).toNat)

/-- R141, R130 (c), R254: a jump to itself stands still for any number of steps, each of which counts both timers down
to zero and no further, TIMER_PER_STEP being at its default (log 4). -/
def Obligations.SelfJumpCountsTheTimersDown : Prop :=
  ∀ (n : Nat) (s : State) (nnn : Addr), Executes s (.jp nnn) → nnn.toNat = s.pc.toNat →
    ∃ t, Host.Core.run Sys2Proof.core n s = .next t ∧ t.dt.toNat = s.dt.toNat - n ∧ t.st.toNat = s.st.toNat - n ∧
      Executes t (.jp nnn) ∧ FrameBut s t [.dt, .st, .draw, .ended, .inputs]

/-! ## The machine as a whole -/

/-- The column 'written by' of R20, as far as instructions go: each piece of state changes only by the instructions
listed for it, and no instruction writes KEYS, ENDED or an input. FAULT changes only by the six instructions that can
fault (R241), VF besides as a destination by the six that flag in it (R22). -/
def Obligations.StateChangesOnlyByItsWriters : Prop :=
  ∀ (i : Instr) (s t : State), exec i s = .next t →
    (t.i ≠ s.i → (∃ nnn, i = .ldI nnn) ∨ (∃ x, i = .addI x) ∨ ∃ x, i = .ldF x) ∧
    (t.pc ≠ s.pc → i = .ret ∨ (∃ nnn, i = .jp nnn ∨ i = .call nnn ∨ i = .jpV0 nnn) ∨
      (∃ x kk, i = .seByte x kk ∨ i = .sneByte x kk) ∨ (∃ x y n, i = .seReg x y n ∨ i = .sneReg x y n) ∨
      ∃ x, i = .skp x ∨ i = .sknp x ∨ i = .ldVxK x) ∧
    (∀ r, t.getV r ≠ s.getV r →
      (∃ kk, i = .ldByte r kk ∨ i = .addByte r kk ∨ i = .rnd r kk) ∨
      (∃ y, i = .ldReg r y ∨ i = .orReg r y ∨ i = .andReg r y ∨ i = .xorReg r y ∨ i = .addReg r y ∨ i = .subReg r y ∨
        i = .shr r y ∨ i = .subnReg r y ∨ i = .shl r y) ∨
      i = .ldVxDT r ∨ i = .ldVxK r ∨ (∃ x, r ≤ x ∧ i = .ldVxMem x) ∨
      (r = 15 ∧ ((∃ x y, i = .addReg x y ∨ i = .subReg x y ∨ i = .shr x y ∨ i = .subnReg x y ∨ i = .shl x y) ∨
        ∃ x y n, i = .drw x y n))) ∧
    (t.fault ≠ s.fault → i = .ret ∨ (∃ nnn, i = .call nnn) ∨ (∃ x y n, i = .drw x y n) ∨
      ∃ x, i = .ldB x ∨ i = .ldMemVx x ∨ i = .ldVxMem x) ∧
    (t.sp ≠ s.sp → i = .ret ∨ ∃ nnn, i = .call nnn) ∧
    (t.stack ≠ s.stack → ∃ nnn, i = .call nnn) ∧
    (t.dt ≠ s.dt → ∃ x, i = .ldDTVx x) ∧
    (t.st ≠ s.st → ∃ x, i = .ldSTVx x) ∧
    (t.mem ≠ s.mem → (∃ x, i = .ldB x) ∨ ∃ x, i = .ldMemVx x) ∧
    (t.fb ≠ s.fb → i = .cls ∨ ∃ x y n, i = .drw x y n) ∧
    (t.draw ≠ s.draw → ∃ x y n, i = .drw x y n) ∧
    t.keys = s.keys ∧ t.ended = s.ended ∧ t.rndIn = s.rndIn ∧ t.tickIn = s.tickIn ∧ t.stepNo = s.stepNo

/-- R22: VF changes only by the six flag-writing instructions or by one that names it as its destination. -/
def Obligations.OnlySixWriteVFAsAFlag : Prop :=
  ∀ (i : Instr) (s t : State), exec i s = .next t → t.getV 15 ≠ s.getV 15 →
    (∃ x y, i = .addReg x y ∨ i = .subReg x y ∨ i = .shr x y ∨ i = .subnReg x y ∨ i = .shl x y) ∨
    (∃ x y n, i = .drw x y n) ∨
    (∃ kk, i = .ldByte 15 kk ∨ i = .addByte 15 kk ∨ i = .rnd 15 kk) ∨
    (∃ y, i = .ldReg 15 y ∨ i = .orReg 15 y ∨ i = .andReg 15 y ∨ i = .xorReg 15 y) ∨
    i = .ldVxDT 15 ∨ i = .ldVxK 15 ∨ i = .ldVxMem 15

/-- R35: the random byte is read by `RND` and by nothing else: any other step is the same whatever byte and tick stand on
the ports. -/
def Obligations.OnlyRndReadsTheRandomByte : Prop :=
  ∀ (s : State) (rnd : Byte) (tick : Bool), (∀ x kk, ¬ Executes s (.rnd x kk)) →
    step (s.withInput rnd tick) = step s

/-- R20, R35, R36: the thirteen components of `Arch` are the whole state: what a transaction reports and the components it
leaves depend on them and on the transaction's own arguments alone, not on the inputs left by an earlier step. -/
def Obligations.ThirteenComponentsAreTheWholeState : Prop :=
  ∀ (perStep : Bool) (s s' : State) (tr : Transaction), s.toArch = s'.toArch →
    ∃ t t' r, transact perStep s tr = some (t, r) ∧ transact perStep s' tr = some (t', r) ∧ t.toArch = t'.toArch

/-- R28, R32, R33: no instruction reads ST, DRAW or ENDED. -/
def Obligations.NothingReadsStDrawEnded : Prop :=
  ∀ (i : Instr) (s t : State) (st : Byte) (draw ended : Bool), exec i s = .next t →
    ∃ t', exec i { s with st := st, draw := draw, ended := ended } = .next t' ∧ FrameBut t t' [.st, .draw, .ended]

/-- R37, R280: the state after `Reset`, from whatever state, piece by piece. The last lines are the 80 bytes of FONT, an
OPEN parameter (R6, D13) that the model fixes at its default, the table of R62 (log 5). -/
def Obligations.ResetStateIsTheSpecs : Prop :=
  (∀ (perStep : Bool) (s : State), transact perStep s .reset = some (State.reset, .done)) ∧
  (∀ r, State.reset.getV r = 0) ∧ State.reset.i = 0 ∧ State.reset.pc = 0x200 ∧
  (∀ k : Fin 16, State.reset.stack[k] = 0) ∧ State.reset.sp = 0 ∧ State.reset.dt = 0 ∧ State.reset.st = 0 ∧
  (∀ row col, State.reset.fb.get row col = false) ∧ State.reset.keys = 0 ∧ State.reset.draw = false ∧
  State.reset.ended = false ∧ State.reset.fault = { cause := none, addr := 0, info := 0 } ∧
  (∀ a, 0x50 ≤ a → State.reset.mem.read a = 0) ∧
  (List.range 80).map State.reset.mem.read =
    [0xF0, 0x90, 0x90, 0x90, 0xF0] ++ [0x20, 0x60, 0x20, 0x20, 0x70] ++ [0xF0, 0x10, 0xF0, 0x80, 0xF0] ++
    [0xF0, 0x10, 0xF0, 0x10, 0xF0] ++ [0x90, 0x90, 0xF0, 0x10, 0x10] ++ [0xF0, 0x80, 0xF0, 0x10, 0xF0] ++
    [0xF0, 0x80, 0xF0, 0x90, 0xF0] ++ [0xF0, 0x10, 0x20, 0x40, 0x40] ++ [0xF0, 0x90, 0xF0, 0x90, 0xF0] ++
    [0xF0, 0x90, 0xF0, 0x10, 0xF0] ++ [0xF0, 0x90, 0xF0, 0x90, 0x90] ++ [0xE0, 0x90, 0xE0, 0x90, 0xE0] ++
    [0xF0, 0x80, 0x80, 0x80, 0xF0] ++ [0xE0, 0x90, 0x90, 0x90, 0xE0] ++ [0xF0, 0x80, 0xF0, 0x80, 0xF0] ++
    [0xF0, 0x80, 0xF0, 0x80, 0x80]

/-- The invariant of R40 holds after reset. -/
def Obligations.ResetMeetsTheInvariant : Prop := State.reset.Inv

/-- The invariant of R40 is kept by every step, from any state that meets it. -/
def Obligations.StepKeepsTheInvariant : Prop :=
  ∀ s t : State, s.Inv → step s = .next t → t.Inv

/-- The invariant of R40 is kept by every transaction, from any state that meets it, for either value of
TIMER_PER_STEP. -/
def Obligations.TransactionKeepsTheInvariant : Prop :=
  ∀ (perStep : Bool) (s t : State) (tr : Transaction) (r : Report), s.Inv → transact perStep s tr = some (t, r) → t.Inv

/-- R40: every state a run of transactions reaches from reset meets the invariant, for either value of
TIMER_PER_STEP. -/
def Obligations.ReachableStatesMeetTheInvariant : Prop :=
  ∀ (perStep : Bool) (s : State), Reachable perStep s → s.Inv

/-! ## Memory and the host's transactions (spec/20_memory.md, spec/70_reset_and_hazards.md) -/

/-- R67: `MemRead` and `MemWrite`: the check on the highest address, the bytes in ascending order, nothing else
changed, and the fault an instruction raises when the check fails. -/
def Obligations.MemoryPrimitives : Prop :=
  (∀ (s : State) (a n : Nat), n ≠ 0 → 0xFFF < a + n - 1 →
    s.memRead a n = .error (BitVec.ofNat 16 (min (a + n - 1) 0xFFFF))) ∧
  (∀ (s : State) (a n : Nat), n = 0 ∨ a + n - 1 ≤ 0xFFF →
    s.memRead a n = .ok ((List.range n).map fun k => s.mem.read (a + k))) ∧
  (∀ (s : State) (a : Nat) (bs : List Byte), bs ≠ [] → 0xFFF < a + bs.length - 1 →
    s.memWrite a bs = .error (BitVec.ofNat 16 (min (a + bs.length - 1) 0xFFFF))) ∧
  (∀ (s : State) (a : Nat) (bs : List Byte), bs = [] ∨ a + bs.length - 1 ≤ 0xFFF →
    ∃ t, s.memWrite a bs = .ok t ∧ (∀ k (h : k < bs.length), t.mem.read (a + k) = bs[k]) ∧
      Frame s t (fun p => ∃ k, k < bs.length ∧ p = .mem (a + k))) ∧
  (∀ (s : State) (a : Nat) (bs : List Byte), bs ≠ [] → 0xFFF < a + bs.length - 1 →
    s.storeOrFault a bs = Raised s .memoryOutOfRange (BitVec.ofNat 16 (min (a + bs.length - 1) 0xFFFF))) ∧
  (∀ (s : State) (a n : Nat) (use : List Byte → State), n ≠ 0 → 0xFFF < a + n - 1 →
    s.loadOrFault a n use = Raised s .memoryOutOfRange (BitVec.ofNat 16 (min (a + n - 1) 0xFFFF)))

/-- The canonical form: two well-formed memories that read the same everywhere are the same list (the model's form of
MEM, log 5). -/
def Obligations.CanonicalMemoryIsDetermined : Prop :=
  ∀ m m' : Memory, m.wf = true → m'.wf = true → (∀ a, m.read a = m'.read a) → m = m'

/-- R73, R74: an image of at most 3584 bytes goes to 0x200 upward and nothing else changes; a longer one is refused
whole. -/
def Obligations.LoadPlacesTheImage : Prop :=
  (∀ (s : State) (image : List Byte), image.length ≤ 3584 →
    (s.load image).1 = true ∧ (∀ k (h : k < image.length), (s.load image).2.mem.read (0x200 + k) = image[k]) ∧
    Frame s (s.load image).2 (fun p => ∃ k, k < image.length ∧ p = .mem (0x200 + k))) ∧
  (∀ (s : State) (image : List Byte), 3584 < image.length → s.load image = (false, s))

/-- R31, R38: `SetKeys` replaces the whole latch and nothing else; `Load` and `Observe` leave the latch alone, no step
changes it, and `Reset` gives it its reset value; so a transaction that changes it is one of `SetKeys` and `Reset`.
`Observe` changes nothing at all and returns the state's own FB, V, DT, ST, I, pc, SP, DRAW, ENDED and FAULT. -/
def Obligations.OnlySetKeysWritesTheLatch : Prop :=
  (∀ (perStep : Bool) (s : State) (mask : BitVec 16), ∃ t, transact perStep s (.setKeys mask) = some (t, .done) ∧
    t.keys = mask ∧ FrameBut s t [.keys]) ∧
  (∀ (perStep : Bool) (s t : State), stepWith perStep s = .next t → t.keys = s.keys) ∧
  (∀ (perStep : Bool) (s : State) (image : List Byte), ∃ t r, transact perStep s (.load image) = some (t, r) ∧
    t.keys = s.keys) ∧
  (∀ (perStep : Bool) (s : State), ∃ t, transact perStep s .reset = some (t, .done) ∧ t.keys = 0) ∧
  (∀ (perStep : Bool) (s t : State) (tr : Transaction) (r : Report), transact perStep s tr = some (t, r) →
    t.keys ≠ s.keys → tr = .reset ∨ tr = .setKeys t.keys) ∧
  (∀ (perStep : Bool) (s : State), ∃ o, transact perStep s .observe = some (s, .seen o) ∧
    o.fb = s.fb ∧ o.v = s.v ∧ o.dt = s.dt ∧ o.st = s.st ∧ o.i = s.i ∧ o.pc = s.pc ∧ o.sp = s.sp ∧ o.draw = s.draw ∧
    o.ended = s.ended ∧ o.fault = s.fault)

/-- R39: the byte port of `Load` writes one byte, and the read ports show the framebuffer cell `row * 64 + col` and the
debug registers. -/
def Obligations.PortsShowTheState : Prop :=
  (∀ (s : State) (a : Addr) (b : Byte), (s.loadByte a b).mem.read a.toNat = b ∧
    FrameBut s (s.loadByte a b) [.mem a.toNat]) ∧
  (∀ (s : State) (row : Fin 32) (col : Fin 64),
    s.fbPort (BitVec.ofNat 11 (row.val * 64 + col.val)) = s.fb.get row col) ∧
  (∀ (s : State) (r : Reg), s.debugPort (BitVec.ofNat 5 r.val) = some (BitVec.ofNat 16 (s.getV r).toNat)) ∧
  (∀ s : State, s.debugPort 16 = some s.i ∧ s.debugPort 17 = some s.pc ∧
    s.debugPort 18 = some (BitVec.ofNat 16 s.sp.toNat) ∧ s.debugPort 19 = some (BitVec.ofNat 16 s.dt.toNat) ∧
    s.debugPort 20 = some (BitVec.ofNat 16 s.st.toNat))

/-- R281, R283: after `Reset` and `Load`, from whatever state, the first step fetches the first two bytes of the image
from 0x200. -/
def Obligations.BootFetchesTheImage : Prop :=
  ∀ (perStep : Bool) (s : State) (hi lo : Byte) (rest : List Byte), (hi :: lo :: rest).length ≤ 3584 →
    ∃ t, transactAll perStep s [.reset, .load (hi :: lo :: rest)] = some t ∧ t.pc = 0x200 ∧ t.fault.cause = none ∧
      wordAt t t.pc.toNat = BitVec.ofNat 16 (hi.toNat * 256 + lo.toNat)

/-- The model's own way to place an instruction (log 9): after it, whatever the state, the next step fetches that
word. -/
def Obligations.PlacedWordIsFetched : Prop :=
  ∀ (s : State) (w : Word), (s.withFetchWord 16 w.toNat).fault.cause = none ∧
    (s.withFetchWord 16 w.toNat).pc.toNat ≤ 0xFFE ∧
    wordAt (s.withFetchWord 16 w.toNat) (s.withFetchWord 16 w.toNat).pc.toNat = w ∧
    (s.fault.cause = none → s.pc.toNat ≤ 0xFFE →
      FrameBut s (s.withFetchWord 16 w.toNat) [.mem s.pc.toNat, .mem (s.pc.toNat + 1)])
end

