-- ==== Sys2Proof/Laws/Decode.lean ====
section
/-! SUPPORT. The fields of an assembled word (spec/30_encoding.md R91, R93) and of a word taken apart. -/

namespace Sys2Proof

/-- Concatenation as arithmetic (R7: the first part in the high bits). -/
theorem toNat_append {m n : Nat} (a : BitVec m) (b : BitVec n) : (a ++ b).toNat = a.toNat * 2 ^ n + b.toNat := by
  rw [BitVec.toNat_append, Nat.shiftLeft_eq, Nat.mul_comm, ← Nat.two_pow_add_eq_or_of_lt b.isLt]

theorem toNat_ofNat_reg (x : Reg) : (BitVec.ofNat 4 x.val).toNat = x.val := by
  rw [BitVec.toNat_ofNat, Nat.mod_eq_of_lt x.isLt]

theorem toNat_wordA (op : Nibble) (nnn : Addr) : (wordA op nnn).toNat = op.toNat * 4096 + nnn.toNat := by
  rw [wordA, toNat_append]; omega

theorem toNat_wordXK (op : Nibble) (x : Reg) (kk : Byte) :
    (wordXK op x kk).toNat = op.toNat * 4096 + x.val * 256 + kk.toNat := by
  rw [wordXK, toNat_append, toNat_append, toNat_ofNat_reg]; omega

theorem toNat_wordXYN (op : Nibble) (x y : Reg) (n : Nibble) :
    (wordXYN op x y n).toNat = op.toNat * 4096 + x.val * 256 + y.val * 16 + n.toNat := by
  rw [wordXYN, toNat_append, toNat_append, toNat_append, toNat_ofNat_reg, toNat_ofNat_reg]; omega

/-! ## The fields as numbers (R91) -/

theorem toNat_fieldOP (w : Word) : (fieldOP w).toNat = w.toNat / 4096 := by
  have := w.isLt
  simp [fieldOP, BitVec.extractLsb'_toNat, Nat.shiftRight_eq_div_pow]; omega

theorem val_fieldX (w : Word) : (fieldX w).val = w.toNat / 256 % 16 := by
  simp [fieldX, BitVec.extractLsb'_toNat, Nat.shiftRight_eq_div_pow]

theorem val_fieldY (w : Word) : (fieldY w).val = w.toNat / 16 % 16 := by
  simp [fieldY, BitVec.extractLsb'_toNat, Nat.shiftRight_eq_div_pow]

theorem toNat_fieldN (w : Word) : (fieldN w).toNat = w.toNat % 16 := by
  simp [fieldN, BitVec.extractLsb'_toNat]

theorem toNat_fieldKK (w : Word) : (fieldKK w).toNat = w.toNat % 256 := by
  simp [fieldKK, BitVec.extractLsb'_toNat]

theorem toNat_fieldNNN (w : Word) : (fieldNNN w).toNat = w.toNat % 4096 := by
  simp [fieldNNN, BitVec.extractLsb'_toNat]

/-! ## The fields of an assembled word -/

@[simp] theorem fieldOP_wordA (op : Nibble) (nnn : Addr) : fieldOP (wordA op nnn) = op := by
  have := nnn.isLt
  apply BitVec.eq_of_toNat_eq; rw [toNat_fieldOP, toNat_wordA]; omega

@[simp] theorem fieldNNN_wordA (op : Nibble) (nnn : Addr) : fieldNNN (wordA op nnn) = nnn := by
  have := nnn.isLt
  apply BitVec.eq_of_toNat_eq; rw [toNat_fieldNNN, toNat_wordA]; omega

@[simp] theorem fieldOP_wordXK (op : Nibble) (x : Reg) (kk : Byte) : fieldOP (wordXK op x kk) = op := by
  have := kk.isLt
  have := x.isLt
  apply BitVec.eq_of_toNat_eq; rw [toNat_fieldOP, toNat_wordXK]; omega

@[simp] theorem fieldX_wordXK (op : Nibble) (x : Reg) (kk : Byte) : fieldX (wordXK op x kk) = x := by
  have := kk.isLt
  have := x.isLt
  apply Fin.ext; rw [val_fieldX, toNat_wordXK]; omega

@[simp] theorem fieldKK_wordXK (op : Nibble) (x : Reg) (kk : Byte) : fieldKK (wordXK op x kk) = kk := by
  have := kk.isLt
  apply BitVec.eq_of_toNat_eq; rw [toNat_fieldKK, toNat_wordXK]; omega

@[simp] theorem fieldOP_wordXYN (op : Nibble) (x y : Reg) (n : Nibble) : fieldOP (wordXYN op x y n) = op := by
  have := n.isLt
  have := x.isLt
  have := y.isLt
  apply BitVec.eq_of_toNat_eq; rw [toNat_fieldOP, toNat_wordXYN]; omega

@[simp] theorem fieldX_wordXYN (op : Nibble) (x y : Reg) (n : Nibble) : fieldX (wordXYN op x y n) = x := by
  have := n.isLt
  have := x.isLt
  have := y.isLt
  apply Fin.ext; rw [val_fieldX, toNat_wordXYN]; omega

@[simp] theorem fieldY_wordXYN (op : Nibble) (x y : Reg) (n : Nibble) : fieldY (wordXYN op x y n) = y := by
  have := n.isLt
  have := y.isLt
  apply Fin.ext; rw [val_fieldY, toNat_wordXYN]; omega

@[simp] theorem fieldN_wordXYN (op : Nibble) (x y : Reg) (n : Nibble) : fieldN (wordXYN op x y n) = n := by
  have := n.isLt
  apply BitVec.eq_of_toNat_eq; rw [toNat_fieldN, toNat_wordXYN]; omega

/-! ## The masks of R100 as numbers -/

theorem and_append_nibbles (a b c d a' b' c' d' : Nibble) :
    (a ++ b ++ c ++ d) &&& (a' ++ b' ++ c' ++ d') = (a &&& a') ++ (b &&& b') ++ (c &&& c') ++ (d &&& d') := by
  rw [BitVec.and_append, BitVec.and_append, BitVec.and_append]

theorem nibble_and_15 (a : Nibble) : a &&& 15#4 = a := by
  rw [show 15#4 = BitVec.allOnes 4 by decide, BitVec.and_allOnes]

/-! ## A word from its parts -/

theorem wordA_fields (w : Word) : wordA (fieldOP w) (fieldNNN w) = w := by
  apply BitVec.eq_of_toNat_eq; rw [toNat_wordA, toNat_fieldOP, toNat_fieldNNN]; omega

theorem wordXK_fields (w : Word) : wordXK (fieldOP w) (fieldX w) (fieldKK w) = w := by
  apply BitVec.eq_of_toNat_eq; rw [toNat_wordXK, toNat_fieldOP, val_fieldX, toNat_fieldKK]; omega

theorem wordXYN_fields (w : Word) : wordXYN (fieldOP w) (fieldX w) (fieldY w) (fieldN w) = w := by
  apply BitVec.eq_of_toNat_eq; rw [toNat_wordXYN, toNat_fieldOP, val_fieldX, val_fieldY, toNat_fieldN]; omega

theorem toNat_and_F000 (w : Word) : (w &&& 0xF000).toNat = w.toNat / 4096 * 4096 := by
  conv =>
    lhs
    rw [← wordXYN_fields w, wordXYN, show (0xF000 : Word) = 15#4 ++ 0#4 ++ 0#4 ++ 0#4 by decide, and_append_nibbles]
  rw [nibble_and_15, BitVec.and_zero, BitVec.and_zero, BitVec.and_zero]
  simp only [toNat_append, toNat_fieldOP]; simp; omega

theorem toNat_and_F00F (w : Word) : (w &&& 0xF00F).toNat = w.toNat / 4096 * 4096 + w.toNat % 16 := by
  conv =>
    lhs
    rw [← wordXYN_fields w, wordXYN, show (0xF00F : Word) = 15#4 ++ 0#4 ++ 0#4 ++ 15#4 by decide, and_append_nibbles]
  rw [nibble_and_15, nibble_and_15, BitVec.and_zero, BitVec.and_zero]
  simp only [toNat_append, toNat_fieldOP, toNat_fieldN]; simp; omega

theorem toNat_and_F0FF (w : Word) : (w &&& 0xF0FF).toNat = w.toNat / 4096 * 4096 + w.toNat % 256 := by
  conv =>
    lhs
    rw [← wordXYN_fields w, wordXYN, show (0xF0FF : Word) = 15#4 ++ 0#4 ++ 15#4 ++ 15#4 by decide, and_append_nibbles]
  rw [nibble_and_15, nibble_and_15, nibble_and_15, BitVec.and_zero]
  simp only [toNat_append, toNat_fieldOP, toNat_fieldN, val_fieldY]; simp; omega

theorem toNat_and_FFFF (w : Word) : (w &&& 0xFFFF).toNat = w.toNat := by
  rw [show (0xFFFF : Word) = BitVec.allOnes 16 by decide, BitVec.and_allOnes]

/-! ## A written-out word as an encoded one -/

theorem ofNat_wordA {k : Nat} (op : Nibble) (nnn : Addr) (h : k = op.toNat * 4096 + nnn.toNat) :
    BitVec.ofNat 16 k = wordA op nnn := by
  apply BitVec.eq_of_toNat_eq; rw [toNat_wordA, BitVec.toNat_ofNat, h]
  have := op.isLt
  have := nnn.isLt
  omega

theorem ofNat_wordXK {k : Nat} (op : Nibble) (x : Reg) (kk : Byte) (h : k = op.toNat * 4096 + x.val * 256 + kk.toNat) :
    BitVec.ofNat 16 k = wordXK op x kk := by
  apply BitVec.eq_of_toNat_eq; rw [toNat_wordXK, BitVec.toNat_ofNat, h]
  have := op.isLt
  have := x.isLt
  have := kk.isLt
  omega

theorem ofNat_wordXYN {k : Nat} (op : Nibble) (x y : Reg) (n : Nibble)
    (h : k = op.toNat * 4096 + x.val * 256 + y.val * 16 + n.toNat) : BitVec.ofNat 16 k = wordXYN op x y n := by
  apply BitVec.eq_of_toNat_eq; rw [toNat_wordXYN, BitVec.toNat_ofNat, h]
  have := op.isLt
  have := x.isLt
  have := y.isLt
  have := n.isLt
  omega

theorem wordOfBytes_bytesOfWord (w : Word) : wordOfBytes (w.extractLsb' 8 8) (w.extractLsb' 0 8) = w := by
  have := w.isLt
  apply BitVec.eq_of_toNat_eq
  rw [wordOfBytes, toNat_append]
  simp [BitVec.extractLsb'_toNat, Nat.shiftRight_eq_div_pow]; omega

/-- The decoder on a list of bytes is the decoder on the word they make (R63). -/
theorem decode_bytesOfWord (w : Word) (rest : List Byte) : decode (bytesOfWord w ++ rest) =
    match decodeWord w with
    | .ok i => .ok (i, rest)
    | .error e => .error e := by
  rw [bytesOfWord, List.cons_append, List.cons_append, decode, wordOfBytes_bytesOfWord]
  cases decodeWord w <;> rfl

end Sys2Proof
end

