-- ==== Sys2Proof/Laws/State.lean ====
section
/-! SUPPORT. The fields of a state after each update: one lemma a field and update, all true by rfl. -/

namespace Sys2Proof.Machine

variable (s : State)

@[simp] theorem State.setV_v (r : Reg) (b : Byte) : (s.setV r b).v = s.v.set r b := rfl
@[simp] theorem State.setV_i (r : Reg) (b : Byte) : (s.setV r b).i = s.i := rfl
@[simp] theorem State.setV_pc (r : Reg) (b : Byte) : (s.setV r b).pc = s.pc := rfl
@[simp] theorem State.setV_stack (r : Reg) (b : Byte) : (s.setV r b).stack = s.stack := rfl
@[simp] theorem State.setV_sp (r : Reg) (b : Byte) : (s.setV r b).sp = s.sp := rfl
@[simp] theorem State.setV_dt (r : Reg) (b : Byte) : (s.setV r b).dt = s.dt := rfl
@[simp] theorem State.setV_st (r : Reg) (b : Byte) : (s.setV r b).st = s.st := rfl
@[simp] theorem State.setV_mem (r : Reg) (b : Byte) : (s.setV r b).mem = s.mem := rfl
@[simp] theorem State.setV_fb (r : Reg) (b : Byte) : (s.setV r b).fb = s.fb := rfl
@[simp] theorem State.setV_keys (r : Reg) (b : Byte) : (s.setV r b).keys = s.keys := rfl
@[simp] theorem State.setV_draw (r : Reg) (b : Byte) : (s.setV r b).draw = s.draw := rfl
@[simp] theorem State.setV_ended (r : Reg) (b : Byte) : (s.setV r b).ended = s.ended := rfl
@[simp] theorem State.setV_fault (r : Reg) (b : Byte) : (s.setV r b).fault = s.fault := rfl
@[simp] theorem State.setV_rndIn (r : Reg) (b : Byte) : (s.setV r b).rndIn = s.rndIn := rfl
@[simp] theorem State.setV_tickIn (r : Reg) (b : Byte) : (s.setV r b).tickIn = s.tickIn := rfl
@[simp] theorem State.setV_stepNo (r : Reg) (b : Byte) : (s.setV r b).stepNo = s.stepNo := rfl

@[simp] theorem State.setI_v (w : Word) : (s.setI w).v = s.v := rfl
@[simp] theorem State.setI_i (w : Word) : (s.setI w).i = w := rfl
@[simp] theorem State.setI_pc (w : Word) : (s.setI w).pc = s.pc := rfl
@[simp] theorem State.setI_stack (w : Word) : (s.setI w).stack = s.stack := rfl
@[simp] theorem State.setI_sp (w : Word) : (s.setI w).sp = s.sp := rfl
@[simp] theorem State.setI_dt (w : Word) : (s.setI w).dt = s.dt := rfl
@[simp] theorem State.setI_st (w : Word) : (s.setI w).st = s.st := rfl
@[simp] theorem State.setI_mem (w : Word) : (s.setI w).mem = s.mem := rfl
@[simp] theorem State.setI_fb (w : Word) : (s.setI w).fb = s.fb := rfl
@[simp] theorem State.setI_keys (w : Word) : (s.setI w).keys = s.keys := rfl
@[simp] theorem State.setI_draw (w : Word) : (s.setI w).draw = s.draw := rfl
@[simp] theorem State.setI_ended (w : Word) : (s.setI w).ended = s.ended := rfl
@[simp] theorem State.setI_fault (w : Word) : (s.setI w).fault = s.fault := rfl
@[simp] theorem State.setI_rndIn (w : Word) : (s.setI w).rndIn = s.rndIn := rfl
@[simp] theorem State.setI_tickIn (w : Word) : (s.setI w).tickIn = s.tickIn := rfl
@[simp] theorem State.setI_stepNo (w : Word) : (s.setI w).stepNo = s.stepNo := rfl

@[simp] theorem State.setPc_v (w : Word) : (s.setPc w).v = s.v := rfl
@[simp] theorem State.setPc_i (w : Word) : (s.setPc w).i = s.i := rfl
@[simp] theorem State.setPc_pc (w : Word) : (s.setPc w).pc = w := rfl
@[simp] theorem State.setPc_stack (w : Word) : (s.setPc w).stack = s.stack := rfl
@[simp] theorem State.setPc_sp (w : Word) : (s.setPc w).sp = s.sp := rfl
@[simp] theorem State.setPc_dt (w : Word) : (s.setPc w).dt = s.dt := rfl
@[simp] theorem State.setPc_st (w : Word) : (s.setPc w).st = s.st := rfl
@[simp] theorem State.setPc_mem (w : Word) : (s.setPc w).mem = s.mem := rfl
@[simp] theorem State.setPc_fb (w : Word) : (s.setPc w).fb = s.fb := rfl
@[simp] theorem State.setPc_keys (w : Word) : (s.setPc w).keys = s.keys := rfl
@[simp] theorem State.setPc_draw (w : Word) : (s.setPc w).draw = s.draw := rfl
@[simp] theorem State.setPc_ended (w : Word) : (s.setPc w).ended = s.ended := rfl
@[simp] theorem State.setPc_fault (w : Word) : (s.setPc w).fault = s.fault := rfl
@[simp] theorem State.setPc_rndIn (w : Word) : (s.setPc w).rndIn = s.rndIn := rfl
@[simp] theorem State.setPc_tickIn (w : Word) : (s.setPc w).tickIn = s.tickIn := rfl
@[simp] theorem State.setPc_stepNo (w : Word) : (s.setPc w).stepNo = s.stepNo := rfl

@[simp] theorem State.setDt_v (b : Byte) : (s.setDt b).v = s.v := rfl
@[simp] theorem State.setDt_i (b : Byte) : (s.setDt b).i = s.i := rfl
@[simp] theorem State.setDt_pc (b : Byte) : (s.setDt b).pc = s.pc := rfl
@[simp] theorem State.setDt_stack (b : Byte) : (s.setDt b).stack = s.stack := rfl
@[simp] theorem State.setDt_sp (b : Byte) : (s.setDt b).sp = s.sp := rfl
@[simp] theorem State.setDt_dt (b : Byte) : (s.setDt b).dt = b := rfl
@[simp] theorem State.setDt_st (b : Byte) : (s.setDt b).st = s.st := rfl
@[simp] theorem State.setDt_mem (b : Byte) : (s.setDt b).mem = s.mem := rfl
@[simp] theorem State.setDt_fb (b : Byte) : (s.setDt b).fb = s.fb := rfl
@[simp] theorem State.setDt_keys (b : Byte) : (s.setDt b).keys = s.keys := rfl
@[simp] theorem State.setDt_draw (b : Byte) : (s.setDt b).draw = s.draw := rfl
@[simp] theorem State.setDt_ended (b : Byte) : (s.setDt b).ended = s.ended := rfl
@[simp] theorem State.setDt_fault (b : Byte) : (s.setDt b).fault = s.fault := rfl
@[simp] theorem State.setDt_rndIn (b : Byte) : (s.setDt b).rndIn = s.rndIn := rfl
@[simp] theorem State.setDt_tickIn (b : Byte) : (s.setDt b).tickIn = s.tickIn := rfl
@[simp] theorem State.setDt_stepNo (b : Byte) : (s.setDt b).stepNo = s.stepNo := rfl

@[simp] theorem State.setSt_v (b : Byte) : (s.setSt b).v = s.v := rfl
@[simp] theorem State.setSt_i (b : Byte) : (s.setSt b).i = s.i := rfl
@[simp] theorem State.setSt_pc (b : Byte) : (s.setSt b).pc = s.pc := rfl
@[simp] theorem State.setSt_stack (b : Byte) : (s.setSt b).stack = s.stack := rfl
@[simp] theorem State.setSt_sp (b : Byte) : (s.setSt b).sp = s.sp := rfl
@[simp] theorem State.setSt_dt (b : Byte) : (s.setSt b).dt = s.dt := rfl
@[simp] theorem State.setSt_st (b : Byte) : (s.setSt b).st = b := rfl
@[simp] theorem State.setSt_mem (b : Byte) : (s.setSt b).mem = s.mem := rfl
@[simp] theorem State.setSt_fb (b : Byte) : (s.setSt b).fb = s.fb := rfl
@[simp] theorem State.setSt_keys (b : Byte) : (s.setSt b).keys = s.keys := rfl
@[simp] theorem State.setSt_draw (b : Byte) : (s.setSt b).draw = s.draw := rfl
@[simp] theorem State.setSt_ended (b : Byte) : (s.setSt b).ended = s.ended := rfl
@[simp] theorem State.setSt_fault (b : Byte) : (s.setSt b).fault = s.fault := rfl
@[simp] theorem State.setSt_rndIn (b : Byte) : (s.setSt b).rndIn = s.rndIn := rfl
@[simp] theorem State.setSt_tickIn (b : Byte) : (s.setSt b).tickIn = s.tickIn := rfl
@[simp] theorem State.setSt_stepNo (b : Byte) : (s.setSt b).stepNo = s.stepNo := rfl

@[simp] theorem State.setMem_v (m : Memory) : (s.setMem m).v = s.v := rfl
@[simp] theorem State.setMem_i (m : Memory) : (s.setMem m).i = s.i := rfl
@[simp] theorem State.setMem_pc (m : Memory) : (s.setMem m).pc = s.pc := rfl
@[simp] theorem State.setMem_stack (m : Memory) : (s.setMem m).stack = s.stack := rfl
@[simp] theorem State.setMem_sp (m : Memory) : (s.setMem m).sp = s.sp := rfl
@[simp] theorem State.setMem_dt (m : Memory) : (s.setMem m).dt = s.dt := rfl
@[simp] theorem State.setMem_st (m : Memory) : (s.setMem m).st = s.st := rfl
@[simp] theorem State.setMem_mem (m : Memory) : (s.setMem m).mem = m := rfl
@[simp] theorem State.setMem_fb (m : Memory) : (s.setMem m).fb = s.fb := rfl
@[simp] theorem State.setMem_keys (m : Memory) : (s.setMem m).keys = s.keys := rfl
@[simp] theorem State.setMem_draw (m : Memory) : (s.setMem m).draw = s.draw := rfl
@[simp] theorem State.setMem_ended (m : Memory) : (s.setMem m).ended = s.ended := rfl
@[simp] theorem State.setMem_fault (m : Memory) : (s.setMem m).fault = s.fault := rfl
@[simp] theorem State.setMem_rndIn (m : Memory) : (s.setMem m).rndIn = s.rndIn := rfl
@[simp] theorem State.setMem_tickIn (m : Memory) : (s.setMem m).tickIn = s.tickIn := rfl
@[simp] theorem State.setMem_stepNo (m : Memory) : (s.setMem m).stepNo = s.stepNo := rfl

@[simp] theorem State.setFb_v (f : Framebuffer) : (s.setFb f).v = s.v := rfl
@[simp] theorem State.setFb_i (f : Framebuffer) : (s.setFb f).i = s.i := rfl
@[simp] theorem State.setFb_pc (f : Framebuffer) : (s.setFb f).pc = s.pc := rfl
@[simp] theorem State.setFb_stack (f : Framebuffer) : (s.setFb f).stack = s.stack := rfl
@[simp] theorem State.setFb_sp (f : Framebuffer) : (s.setFb f).sp = s.sp := rfl
@[simp] theorem State.setFb_dt (f : Framebuffer) : (s.setFb f).dt = s.dt := rfl
@[simp] theorem State.setFb_st (f : Framebuffer) : (s.setFb f).st = s.st := rfl
@[simp] theorem State.setFb_mem (f : Framebuffer) : (s.setFb f).mem = s.mem := rfl
@[simp] theorem State.setFb_fb (f : Framebuffer) : (s.setFb f).fb = f := rfl
@[simp] theorem State.setFb_keys (f : Framebuffer) : (s.setFb f).keys = s.keys := rfl
@[simp] theorem State.setFb_draw (f : Framebuffer) : (s.setFb f).draw = s.draw := rfl
@[simp] theorem State.setFb_ended (f : Framebuffer) : (s.setFb f).ended = s.ended := rfl
@[simp] theorem State.setFb_fault (f : Framebuffer) : (s.setFb f).fault = s.fault := rfl
@[simp] theorem State.setFb_rndIn (f : Framebuffer) : (s.setFb f).rndIn = s.rndIn := rfl
@[simp] theorem State.setFb_tickIn (f : Framebuffer) : (s.setFb f).tickIn = s.tickIn := rfl
@[simp] theorem State.setFb_stepNo (f : Framebuffer) : (s.setFb f).stepNo = s.stepNo := rfl

@[simp] theorem State.setDraw_v (b : Bool) : (s.setDraw b).v = s.v := rfl
@[simp] theorem State.setDraw_i (b : Bool) : (s.setDraw b).i = s.i := rfl
@[simp] theorem State.setDraw_pc (b : Bool) : (s.setDraw b).pc = s.pc := rfl
@[simp] theorem State.setDraw_stack (b : Bool) : (s.setDraw b).stack = s.stack := rfl
@[simp] theorem State.setDraw_sp (b : Bool) : (s.setDraw b).sp = s.sp := rfl
@[simp] theorem State.setDraw_dt (b : Bool) : (s.setDraw b).dt = s.dt := rfl
@[simp] theorem State.setDraw_st (b : Bool) : (s.setDraw b).st = s.st := rfl
@[simp] theorem State.setDraw_mem (b : Bool) : (s.setDraw b).mem = s.mem := rfl
@[simp] theorem State.setDraw_fb (b : Bool) : (s.setDraw b).fb = s.fb := rfl
@[simp] theorem State.setDraw_keys (b : Bool) : (s.setDraw b).keys = s.keys := rfl
@[simp] theorem State.setDraw_draw (b : Bool) : (s.setDraw b).draw = b := rfl
@[simp] theorem State.setDraw_ended (b : Bool) : (s.setDraw b).ended = s.ended := rfl
@[simp] theorem State.setDraw_fault (b : Bool) : (s.setDraw b).fault = s.fault := rfl
@[simp] theorem State.setDraw_rndIn (b : Bool) : (s.setDraw b).rndIn = s.rndIn := rfl
@[simp] theorem State.setDraw_tickIn (b : Bool) : (s.setDraw b).tickIn = s.tickIn := rfl
@[simp] theorem State.setDraw_stepNo (b : Bool) : (s.setDraw b).stepNo = s.stepNo := rfl

@[simp] theorem State.setEnded_v (b : Bool) : (s.setEnded b).v = s.v := rfl
@[simp] theorem State.setEnded_i (b : Bool) : (s.setEnded b).i = s.i := rfl
@[simp] theorem State.setEnded_pc (b : Bool) : (s.setEnded b).pc = s.pc := rfl
@[simp] theorem State.setEnded_stack (b : Bool) : (s.setEnded b).stack = s.stack := rfl
@[simp] theorem State.setEnded_sp (b : Bool) : (s.setEnded b).sp = s.sp := rfl
@[simp] theorem State.setEnded_dt (b : Bool) : (s.setEnded b).dt = s.dt := rfl
@[simp] theorem State.setEnded_st (b : Bool) : (s.setEnded b).st = s.st := rfl
@[simp] theorem State.setEnded_mem (b : Bool) : (s.setEnded b).mem = s.mem := rfl
@[simp] theorem State.setEnded_fb (b : Bool) : (s.setEnded b).fb = s.fb := rfl
@[simp] theorem State.setEnded_keys (b : Bool) : (s.setEnded b).keys = s.keys := rfl
@[simp] theorem State.setEnded_draw (b : Bool) : (s.setEnded b).draw = s.draw := rfl
@[simp] theorem State.setEnded_ended (b : Bool) : (s.setEnded b).ended = b := rfl
@[simp] theorem State.setEnded_fault (b : Bool) : (s.setEnded b).fault = s.fault := rfl
@[simp] theorem State.setEnded_rndIn (b : Bool) : (s.setEnded b).rndIn = s.rndIn := rfl
@[simp] theorem State.setEnded_tickIn (b : Bool) : (s.setEnded b).tickIn = s.tickIn := rfl
@[simp] theorem State.setEnded_stepNo (b : Bool) : (s.setEnded b).stepNo = s.stepNo := rfl

@[simp] theorem State.setKeys_v (k : BitVec 16) : (s.setKeys k).v = s.v := rfl
@[simp] theorem State.setKeys_i (k : BitVec 16) : (s.setKeys k).i = s.i := rfl
@[simp] theorem State.setKeys_pc (k : BitVec 16) : (s.setKeys k).pc = s.pc := rfl
@[simp] theorem State.setKeys_stack (k : BitVec 16) : (s.setKeys k).stack = s.stack := rfl
@[simp] theorem State.setKeys_sp (k : BitVec 16) : (s.setKeys k).sp = s.sp := rfl
@[simp] theorem State.setKeys_dt (k : BitVec 16) : (s.setKeys k).dt = s.dt := rfl
@[simp] theorem State.setKeys_st (k : BitVec 16) : (s.setKeys k).st = s.st := rfl
@[simp] theorem State.setKeys_mem (k : BitVec 16) : (s.setKeys k).mem = s.mem := rfl
@[simp] theorem State.setKeys_fb (k : BitVec 16) : (s.setKeys k).fb = s.fb := rfl
@[simp] theorem State.setKeys_keys (k : BitVec 16) : (s.setKeys k).keys = k := rfl
@[simp] theorem State.setKeys_draw (k : BitVec 16) : (s.setKeys k).draw = s.draw := rfl
@[simp] theorem State.setKeys_ended (k : BitVec 16) : (s.setKeys k).ended = s.ended := rfl
@[simp] theorem State.setKeys_fault (k : BitVec 16) : (s.setKeys k).fault = s.fault := rfl
@[simp] theorem State.setKeys_rndIn (k : BitVec 16) : (s.setKeys k).rndIn = s.rndIn := rfl
@[simp] theorem State.setKeys_tickIn (k : BitVec 16) : (s.setKeys k).tickIn = s.tickIn := rfl
@[simp] theorem State.setKeys_stepNo (k : BitVec 16) : (s.setKeys k).stepNo = s.stepNo := rfl

@[simp] theorem State.raiseAt_v (a : Word) (f : Fault) (w : Word) : (s.raiseAt a f w).v = s.v := rfl
@[simp] theorem State.raiseAt_i (a : Word) (f : Fault) (w : Word) : (s.raiseAt a f w).i = s.i := rfl
@[simp] theorem State.raiseAt_pc (a : Word) (f : Fault) (w : Word) : (s.raiseAt a f w).pc = s.pc := rfl
@[simp] theorem State.raiseAt_stack (a : Word) (f : Fault) (w : Word) : (s.raiseAt a f w).stack = s.stack := rfl
@[simp] theorem State.raiseAt_sp (a : Word) (f : Fault) (w : Word) : (s.raiseAt a f w).sp = s.sp := rfl
@[simp] theorem State.raiseAt_dt (a : Word) (f : Fault) (w : Word) : (s.raiseAt a f w).dt = s.dt := rfl
@[simp] theorem State.raiseAt_st (a : Word) (f : Fault) (w : Word) : (s.raiseAt a f w).st = s.st := rfl
@[simp] theorem State.raiseAt_mem (a : Word) (f : Fault) (w : Word) : (s.raiseAt a f w).mem = s.mem := rfl
@[simp] theorem State.raiseAt_fb (a : Word) (f : Fault) (w : Word) : (s.raiseAt a f w).fb = s.fb := rfl
@[simp] theorem State.raiseAt_keys (a : Word) (f : Fault) (w : Word) : (s.raiseAt a f w).keys = s.keys := rfl
@[simp] theorem State.raiseAt_draw (a : Word) (f : Fault) (w : Word) : (s.raiseAt a f w).draw = s.draw := rfl
@[simp] theorem State.raiseAt_ended (a : Word) (f : Fault) (w : Word) : (s.raiseAt a f w).ended = s.ended := rfl
@[simp] theorem State.raiseAt_fault (a : Word) (f : Fault) (w : Word) : (s.raiseAt a f w).fault = { cause := some f, addr := a, info := w } := rfl
@[simp] theorem State.raiseAt_rndIn (a : Word) (f : Fault) (w : Word) : (s.raiseAt a f w).rndIn = s.rndIn := rfl
@[simp] theorem State.raiseAt_tickIn (a : Word) (f : Fault) (w : Word) : (s.raiseAt a f w).tickIn = s.tickIn := rfl
@[simp] theorem State.raiseAt_stepNo (a : Word) (f : Fault) (w : Word) : (s.raiseAt a f w).stepNo = s.stepNo := rfl

@[simp] theorem State.raise_v (f : Fault) (w : Word) : (s.raise f w).v = s.v := rfl
@[simp] theorem State.raise_i (f : Fault) (w : Word) : (s.raise f w).i = s.i := rfl
@[simp] theorem State.raise_pc (f : Fault) (w : Word) : (s.raise f w).pc = s.pc := rfl
@[simp] theorem State.raise_stack (f : Fault) (w : Word) : (s.raise f w).stack = s.stack := rfl
@[simp] theorem State.raise_sp (f : Fault) (w : Word) : (s.raise f w).sp = s.sp := rfl
@[simp] theorem State.raise_dt (f : Fault) (w : Word) : (s.raise f w).dt = s.dt := rfl
@[simp] theorem State.raise_st (f : Fault) (w : Word) : (s.raise f w).st = s.st := rfl
@[simp] theorem State.raise_mem (f : Fault) (w : Word) : (s.raise f w).mem = s.mem := rfl
@[simp] theorem State.raise_fb (f : Fault) (w : Word) : (s.raise f w).fb = s.fb := rfl
@[simp] theorem State.raise_keys (f : Fault) (w : Word) : (s.raise f w).keys = s.keys := rfl
@[simp] theorem State.raise_draw (f : Fault) (w : Word) : (s.raise f w).draw = s.draw := rfl
@[simp] theorem State.raise_ended (f : Fault) (w : Word) : (s.raise f w).ended = s.ended := rfl
@[simp] theorem State.raise_fault (f : Fault) (w : Word) : (s.raise f w).fault = { cause := some f, addr := s.pc - 2, info := w } := rfl
@[simp] theorem State.raise_rndIn (f : Fault) (w : Word) : (s.raise f w).rndIn = s.rndIn := rfl
@[simp] theorem State.raise_tickIn (f : Fault) (w : Word) : (s.raise f w).tickIn = s.tickIn := rfl
@[simp] theorem State.raise_stepNo (f : Fault) (w : Word) : (s.raise f w).stepNo = s.stepNo := rfl

@[simp] theorem State.push_v (w : Word) : (s.push w).v = s.v := rfl
@[simp] theorem State.push_i (w : Word) : (s.push w).i = s.i := rfl
@[simp] theorem State.push_pc (w : Word) : (s.push w).pc = s.pc := rfl
@[simp] theorem State.push_stack (w : Word) : (s.push w).stack = s.stack.set (stackIndex s.sp) w := rfl
@[simp] theorem State.push_sp (w : Word) : (s.push w).sp = s.sp + 1 := rfl
@[simp] theorem State.push_dt (w : Word) : (s.push w).dt = s.dt := rfl
@[simp] theorem State.push_st (w : Word) : (s.push w).st = s.st := rfl
@[simp] theorem State.push_mem (w : Word) : (s.push w).mem = s.mem := rfl
@[simp] theorem State.push_fb (w : Word) : (s.push w).fb = s.fb := rfl
@[simp] theorem State.push_keys (w : Word) : (s.push w).keys = s.keys := rfl
@[simp] theorem State.push_draw (w : Word) : (s.push w).draw = s.draw := rfl
@[simp] theorem State.push_ended (w : Word) : (s.push w).ended = s.ended := rfl
@[simp] theorem State.push_fault (w : Word) : (s.push w).fault = s.fault := rfl
@[simp] theorem State.push_rndIn (w : Word) : (s.push w).rndIn = s.rndIn := rfl
@[simp] theorem State.push_tickIn (w : Word) : (s.push w).tickIn = s.tickIn := rfl
@[simp] theorem State.push_stepNo (w : Word) : (s.push w).stepNo = s.stepNo := rfl

@[simp] theorem State.popPc_v : s.popPc.v = s.v := rfl
@[simp] theorem State.popPc_i : s.popPc.i = s.i := rfl
@[simp] theorem State.popPc_pc : s.popPc.pc = s.stack[stackIndex (s.sp - 1)] := rfl
@[simp] theorem State.popPc_stack : s.popPc.stack = s.stack := rfl
@[simp] theorem State.popPc_sp : s.popPc.sp = s.sp - 1 := rfl
@[simp] theorem State.popPc_dt : s.popPc.dt = s.dt := rfl
@[simp] theorem State.popPc_st : s.popPc.st = s.st := rfl
@[simp] theorem State.popPc_mem : s.popPc.mem = s.mem := rfl
@[simp] theorem State.popPc_fb : s.popPc.fb = s.fb := rfl
@[simp] theorem State.popPc_keys : s.popPc.keys = s.keys := rfl
@[simp] theorem State.popPc_draw : s.popPc.draw = s.draw := rfl
@[simp] theorem State.popPc_ended : s.popPc.ended = s.ended := rfl
@[simp] theorem State.popPc_fault : s.popPc.fault = s.fault := rfl
@[simp] theorem State.popPc_rndIn : s.popPc.rndIn = s.rndIn := rfl
@[simp] theorem State.popPc_tickIn : s.popPc.tickIn = s.tickIn := rfl
@[simp] theorem State.popPc_stepNo : s.popPc.stepNo = s.stepNo := rfl

@[simp] theorem State.nextInput_v : s.nextInput.v = s.v := rfl
@[simp] theorem State.nextInput_i : s.nextInput.i = s.i := rfl
@[simp] theorem State.nextInput_pc : s.nextInput.pc = s.pc := rfl
@[simp] theorem State.nextInput_stack : s.nextInput.stack = s.stack := rfl
@[simp] theorem State.nextInput_sp : s.nextInput.sp = s.sp := rfl
@[simp] theorem State.nextInput_dt : s.nextInput.dt = s.dt := rfl
@[simp] theorem State.nextInput_st : s.nextInput.st = s.st := rfl
@[simp] theorem State.nextInput_mem : s.nextInput.mem = s.mem := rfl
@[simp] theorem State.nextInput_fb : s.nextInput.fb = s.fb := rfl
@[simp] theorem State.nextInput_keys : s.nextInput.keys = s.keys := rfl
@[simp] theorem State.nextInput_draw : s.nextInput.draw = s.draw := rfl
@[simp] theorem State.nextInput_ended : s.nextInput.ended = s.ended := rfl
@[simp] theorem State.nextInput_fault : s.nextInput.fault = s.fault := rfl
@[simp] theorem State.nextInput_rndIn : s.nextInput.rndIn = Config.rndInput (s.stepNo + 1) := rfl
@[simp] theorem State.nextInput_tickIn : s.nextInput.tickIn = Config.tickInput (s.stepNo + 1) := rfl
@[simp] theorem State.nextInput_stepNo : s.nextInput.stepNo = s.stepNo + 1 := rfl

@[simp] theorem State.withInput_v (b : Byte) (c : Bool) : (s.withInput b c).v = s.v := rfl
@[simp] theorem State.withInput_i (b : Byte) (c : Bool) : (s.withInput b c).i = s.i := rfl
@[simp] theorem State.withInput_pc (b : Byte) (c : Bool) : (s.withInput b c).pc = s.pc := rfl
@[simp] theorem State.withInput_stack (b : Byte) (c : Bool) : (s.withInput b c).stack = s.stack := rfl
@[simp] theorem State.withInput_sp (b : Byte) (c : Bool) : (s.withInput b c).sp = s.sp := rfl
@[simp] theorem State.withInput_dt (b : Byte) (c : Bool) : (s.withInput b c).dt = s.dt := rfl
@[simp] theorem State.withInput_st (b : Byte) (c : Bool) : (s.withInput b c).st = s.st := rfl
@[simp] theorem State.withInput_mem (b : Byte) (c : Bool) : (s.withInput b c).mem = s.mem := rfl
@[simp] theorem State.withInput_fb (b : Byte) (c : Bool) : (s.withInput b c).fb = s.fb := rfl
@[simp] theorem State.withInput_keys (b : Byte) (c : Bool) : (s.withInput b c).keys = s.keys := rfl
@[simp] theorem State.withInput_draw (b : Byte) (c : Bool) : (s.withInput b c).draw = s.draw := rfl
@[simp] theorem State.withInput_ended (b : Byte) (c : Bool) : (s.withInput b c).ended = s.ended := rfl
@[simp] theorem State.withInput_fault (b : Byte) (c : Bool) : (s.withInput b c).fault = s.fault := rfl
@[simp] theorem State.withInput_rndIn (b : Byte) (c : Bool) : (s.withInput b c).rndIn = b := rfl
@[simp] theorem State.withInput_tickIn (b : Byte) (c : Bool) : (s.withInput b c).tickIn = c := rfl
@[simp] theorem State.withInput_stepNo (b : Byte) (c : Bool) : (s.withInput b c).stepNo = s.stepNo := rfl

/-! ## The state of CORE beside the inputs (R20, R36) -/

@[simp] theorem State.nextInput_toArch (s : State) : s.nextInput.toArch = s.toArch := rfl
@[simp] theorem State.withInput_toArch (s : State) (b : Byte) (c : Bool) : (s.withInput b c).toArch = s.toArch := rfl
@[simp] theorem State.setV_toInputs (s : State) (r : Reg) (b : Byte) : (s.setV r b).toInputs = s.toInputs := rfl
@[simp] theorem State.setPc_toInputs (s : State) (w : Word) : (s.setPc w).toInputs = s.toInputs := rfl
@[simp] theorem State.setMem_toInputs (s : State) (m : Memory) : (s.setMem m).toInputs = s.toInputs := rfl
@[simp] theorem State.raise_toInputs (s : State) (f : Fault) (w : Word) : (s.raise f w).toInputs = s.toInputs := rfl

end Sys2Proof.Machine
end

