-- ==== Sys2Proof/Laws/Memory.lean ====
section
/-! SUPPORT. The laws of main memory: a read after a write, the bytes a block write changes, and the canonical form kept by every memory operation. -/

namespace Sys2Proof.Machine

/-! ## One byte -/

theorem Memory.read_erase (m : Memory) (a b : Nat) :
    (m.erase a).read b = if b = a then Memory.initial b else m.read b := by
  induction m with
  | nil => simp [Memory.erase, Memory.read]
  | cons p m ih =>
    obtain ⟨k, c⟩ := p
    by_cases hk : a = k <;> by_cases hb : b = a <;> simp_all [Memory.erase, Memory.read]

theorem Memory.key_of_mem_erase {m : Memory} {a : Nat} {p : Host.Cell} (h : p ∈ m.erase a) : p.1 ≠ a := by
  induction m with
  | nil => simp [Memory.erase] at h
  | cons q m ih =>
    obtain ⟨k, d⟩ := q
    by_cases hk : a = k
    · exact ih (by simpa [Memory.erase, hk] using h)
    · rcases (by simpa [Memory.erase, hk] using h : p = (k, d) ∨ p ∈ Memory.erase m a) with rfl | h
      · exact Ne.symm hk
      · exact ih h

theorem Memory.read_insert {m : Memory} {a : Nat} (c : Byte) (b : Nat) (hn : ∀ p ∈ m, p.1 ≠ a) :
    (m.insert a c).read b = if b = a then c else m.read b := by
  induction m with
  | nil => simp [Memory.insert, Memory.read]
  | cons p m ih =>
    obtain ⟨k, d⟩ := p
    have hk : k ≠ a := hn (k, d) (by simp)
    have ih := ih fun q hq => hn q (by simp [hq])
    by_cases hlt : a < k
    · simp [Memory.insert, hlt, Memory.read]
    · simp only [Memory.insert, hlt, if_false, Memory.read, ih]
      by_cases hb : b = k
      · simp [hb, hk]
      · simp [hb]

/-- Read after write: the byte written at its address, every other address as before. No canonical form is needed. -/
theorem Memory.read_write (m : Memory) (a b : Nat) (c : Byte) :
    (m.write a c).read b = if b = a then c else m.read b := by
  unfold Memory.write
  split
  · next h => rw [Memory.read_erase]; split <;> simp_all
  · rw [Memory.read_insert c b fun p => Memory.key_of_mem_erase, Memory.read_erase]; split <;> rfl

@[simp] theorem Memory.read_write_same (m : Memory) (a : Nat) (c : Byte) : (m.write a c).read a = c := by
  simp [Memory.read_write]

theorem Memory.read_write_ne (m : Memory) {a b : Nat} (c : Byte) (h : b ≠ a) : (m.write a c).read b = m.read b := by
  simp [Memory.read_write, h]

@[simp] theorem Memory.read_nil (a : Nat) : Memory.read [] a = Memory.initial a := rfl

/-! ## Blocks of bytes -/

/-- What a block write leaves at an address: the byte of the block that lands there, or what was there. -/
theorem Memory.read_writeBytes (bs : List Byte) : ∀ (m : Memory) (a b : Nat),
    (m.writeBytes a bs).read b = if h : a ≤ b ∧ b < a + bs.length then bs[b - a] else m.read b := by
  induction bs with
  | nil => intro m a b; have : ¬ (a ≤ b ∧ b < a) := by omega
           simp [Memory.writeBytes, this]
  | cons c bs ih =>
    intro m a b
    rw [Memory.writeBytes, ih, Memory.read_write]
    by_cases hb : b = a
    · subst hb; simp
    · by_cases hi : a + 1 ≤ b ∧ b < a + 1 + bs.length
      · have h2 : a ≤ b ∧ b < a + (c :: bs).length := by simp only [List.length_cons]; omega
        simp only [hi, h2, and_self, dite_true]
        obtain ⟨k, rfl⟩ : ∃ k, b = a + 1 + k := ⟨b - (a + 1), by omega⟩
        simp [show a + 1 + k - a = k + 1 by omega]
      · have h2 : ¬ (a ≤ b ∧ b < a + (c :: bs).length) := by simp only [List.length_cons]; omega
        simp only [hi, h2, hb, dite_false, if_false]

theorem Memory.read_writeBytes_in {bs : List Byte} {k : Nat} (m : Memory) (a : Nat) (h : k < bs.length) :
    (m.writeBytes a bs).read (a + k) = bs[k] := by
  rw [Memory.read_writeBytes, dif_pos ⟨by omega, by omega⟩]; simp

theorem Memory.read_writeBytes_out {bs : List Byte} (m : Memory) {a b : Nat} (h : b < a ∨ a + bs.length ≤ b) :
    (m.writeBytes a bs).read b = m.read b := by
  rw [Memory.read_writeBytes, dif_neg (by omega)]

@[simp] theorem Memory.length_readBytes (m : Memory) (a n : Nat) : (m.readBytes a n).length = n := by
  induction n generalizing a with
  | zero => rfl
  | succ n ih => simp [Memory.readBytes, ih]

@[simp] theorem Memory.getElem_readBytes (m : Memory) (a n k : Nat) (h : k < (m.readBytes a n).length) :
    (m.readBytes a n)[k] = m.read (a + k) := by
  induction n generalizing a k with
  | zero => simp at h
  | succ n ih =>
    cases k with
    | zero => simp [Memory.readBytes]
    | succ k => simp [Memory.readBytes, ih, Nat.add_comm, Nat.add_left_comm]

theorem Memory.readBytes_two (m : Memory) (a : Nat) : m.readBytes a 2 = [m.read a, m.read (a + 1)] := rfl

/-! ## The range check and the two primitives (R67) -/

theorem accessFault_eq_none {a n : Nat} : accessFault a n = none ↔ n = 0 ∨ a + n ≤ 0x1000 := by
  unfold accessFault; split <;> simp <;> omega

theorem accessFault_of_lt {a n : Nat} (h0 : n ≠ 0) (h : 0x1000 < a + n) :
    accessFault a n = some (BitVec.ofNat 16 (min (a + n - 1) 0xFFFF)) := by
  unfold accessFault; rw [if_pos ⟨h0, by omega⟩]

theorem State.memRead_ok (s : State) {a n : Nat} (h : n = 0 ∨ a + n ≤ 0x1000) :
    s.memRead a n = .ok (s.mem.readBytes a n) := by
  simp [State.memRead, accessFault_eq_none.2 h]

theorem State.memRead_error (s : State) {a n : Nat} (h0 : n ≠ 0) (h : 0x1000 < a + n) :
    s.memRead a n = .error (BitVec.ofNat 16 (min (a + n - 1) 0xFFFF)) := by
  simp [State.memRead, accessFault_of_lt h0 h]

theorem State.storeOrFault_ok (s : State) {a : Nat} {bs : List Byte} (h : bs.length = 0 ∨ a + bs.length ≤ 0x1000) :
    s.storeOrFault a bs = s.setMem (s.mem.writeBytes a bs) := by
  simp [State.storeOrFault, State.memWrite, accessFault_eq_none.2 h]

theorem State.storeOrFault_error (s : State) {a : Nat} {bs : List Byte} (h0 : bs.length ≠ 0)
    (h : 0x1000 < a + bs.length) :
    s.storeOrFault a bs = s.raise .memoryOutOfRange (BitVec.ofNat 16 (min (a + bs.length - 1) 0xFFFF)) := by
  simp [State.storeOrFault, State.memWrite, accessFault_of_lt h0 h]

theorem State.loadOrFault_ok (s : State) {a n : Nat} (use : List Byte → State) (h : n = 0 ∨ a + n ≤ 0x1000) :
    s.loadOrFault a n use = use (s.mem.readBytes a n) := by
  simp [State.loadOrFault, State.memRead_ok s h]

theorem State.loadOrFault_error (s : State) {a n : Nat} (use : List Byte → State) (h0 : n ≠ 0) (h : 0x1000 < a + n) :
    s.loadOrFault a n use = s.raise .memoryOutOfRange (BitVec.ofNat 16 (min (a + n - 1) 0xFFFF)) := by
  simp [State.loadOrFault, State.memRead_error s h0 h]

/-! ## The canonical form -/

theorem Memory.wfFrom_cons {lo k : Nat} {b : Byte} {m : Memory} : Memory.wfFrom lo ((k, b) :: m) = true ↔
    lo ≤ k ∧ k < 0x1000 ∧ b ≠ Memory.initial k ∧ Memory.wfFrom (k + 1) m = true := by
  have hm : Config.memSize = 0x1000 := rfl
  simp [Memory.wfFrom, hm, and_assoc]

theorem Memory.wfFrom_mono {m : Memory} {lo lo' : Nat} (h : Memory.wfFrom lo m = true) (hl : lo' ≤ lo) :
    Memory.wfFrom lo' m = true := by
  cases m with
  | nil => rfl
  | cons p m =>
    obtain ⟨k, b⟩ := p
    rw [Memory.wfFrom_cons] at h ⊢
    exact ⟨by omega, h.2⟩

theorem Memory.wfFrom_erase {m : Memory} {lo : Nat} (a : Nat) (h : Memory.wfFrom lo m = true) :
    Memory.wfFrom lo (m.erase a) = true := by
  induction m generalizing lo with
  | nil => rfl
  | cons p m ih =>
    obtain ⟨k, b⟩ := p
    rw [Memory.wfFrom_cons] at h
    by_cases hk : a = k
    · simp only [Memory.erase, hk, if_true]
      exact hk ▸ Memory.wfFrom_mono (ih h.2.2.2) (by omega)
    · simp only [Memory.erase, hk, if_false]
      exact Memory.wfFrom_cons.2 ⟨h.1, h.2.1, h.2.2.1, ih h.2.2.2⟩

theorem Memory.wfFrom_insert {m : Memory} {lo a : Nat} {c : Byte} (h : Memory.wfFrom lo m = true) (hl : lo ≤ a)
    (ha : a < 0x1000) (hc : c ≠ Memory.initial a) (hn : ∀ p ∈ m, p.1 ≠ a) :
    Memory.wfFrom lo (m.insert a c) = true := by
  induction m generalizing lo with
  | nil => exact Memory.wfFrom_cons.2 ⟨hl, ha, hc, rfl⟩
  | cons p m ih =>
    obtain ⟨k, b⟩ := p
    have hk : k ≠ a := hn (k, b) (by simp)
    rw [Memory.wfFrom_cons] at h
    by_cases hlt : a < k
    · simp only [Memory.insert, hlt, if_true]
      exact Memory.wfFrom_cons.2 ⟨hl, ha, hc, Memory.wfFrom_cons.2 ⟨hlt, h.2⟩⟩
    · simp only [Memory.insert, hlt, if_false]
      exact Memory.wfFrom_cons.2 ⟨h.1, h.2.1, h.2.2.1,
        ih h.2.2.2 (by omega) fun q hq => hn q (by simp [hq])⟩

/-- A write inside the address space keeps the canonical form. -/
theorem Memory.wf_write {m : Memory} (a : Nat) (c : Byte) (h : m.wf = true) (ha : a < 0x1000) :
    (m.write a c).wf = true := by
  unfold Memory.write
  split
  · exact Memory.wfFrom_erase a h
  · next hc => exact Memory.wfFrom_insert (Memory.wfFrom_erase a h) (by omega) ha hc fun p => Memory.key_of_mem_erase

/-- A block write inside the address space keeps the canonical form. -/
theorem Memory.wf_writeBytes {bs : List Byte} : ∀ {m : Memory} (a : Nat), m.wf = true → a + bs.length ≤ 0x1000 →
    (m.writeBytes a bs).wf = true := by
  induction bs with
  | nil => intro m a h _; exact h
  | cons c bs ih =>
    intro m a h ha
    simp only [List.length_cons] at ha
    exact ih (a + 1) (Memory.wf_write a c h (by omega)) (by omega)

/-- A store of an instruction keeps the canonical form, whether it faults or not. -/
theorem State.wf_storeOrFault {s : State} (a : Nat) (bs : List Byte) (h : s.mem.wf = true) :
    (s.storeOrFault a bs).mem.wf = true := by
  by_cases h0 : bs.length = 0
  · rw [State.storeOrFault_ok s (.inl h0)]; simp_all [List.length_eq_zero_iff, Memory.writeBytes]
  · by_cases hr : a + bs.length ≤ 0x1000
    · rw [State.storeOrFault_ok s (.inr hr)]; exact Memory.wf_writeBytes a h hr
    · rw [State.storeOrFault_error s h0 (by omega)]; exact h

theorem State.reset_mem_wf : State.reset.mem.wf = true := rfl

end Sys2Proof.Machine
end

