-- ==== Sys2Proof/Laws/Ops.lean ====
section
/-! SUPPORT. What each shared operation over registers, stack, keys and flags does, said once. -/

namespace Sys2Proof.Machine

/-! ## Registers -/

@[simp] theorem State.getV_setV_same (s : State) (r : Reg) (b : Byte) : (s.setV r b).getV r = b := by
  simp [State.getV, State.setV]

theorem State.getV_setV (s : State) (r q : Reg) (b : Byte) :
    (s.setV r b).getV q = if q = r then b else s.getV q := by
  by_cases h : q = r
  · simp [h]
  · have h' : r.val ≠ q.val := fun e => h (Fin.ext e.symm)
    simp [State.getV, State.setV, h, h']

theorem State.getV_setV_ne (s : State) {r q : Reg} (b : Byte) (h : q ≠ r) : (s.setV r b).getV q = s.getV q := by
  simp [State.getV_setV, h]

/-- Every update but `setV` leaves every register as it was: `getV` sees only the field `v`. -/
theorem State.getV_congr {s t : State} (h : t.v = s.v) (r : Reg) : t.getV r = s.getV r := by
  simp [State.getV, h]

@[simp] theorem State.getV_setI (s : State) (w : Word) (r : Reg) : (s.setI w).getV r = s.getV r := rfl
@[simp] theorem State.getV_setPc (s : State) (w : Word) (r : Reg) : (s.setPc w).getV r = s.getV r := rfl
@[simp] theorem State.getV_setDt (s : State) (b : Byte) (r : Reg) : (s.setDt b).getV r = s.getV r := rfl
@[simp] theorem State.getV_setSt (s : State) (b : Byte) (r : Reg) : (s.setSt b).getV r = s.getV r := rfl
@[simp] theorem State.getV_setMem (s : State) (m : Memory) (r : Reg) : (s.setMem m).getV r = s.getV r := rfl
@[simp] theorem State.getV_setFb (s : State) (f : Framebuffer) (r : Reg) : (s.setFb f).getV r = s.getV r := rfl
@[simp] theorem State.getV_setDraw (s : State) (b : Bool) (r : Reg) : (s.setDraw b).getV r = s.getV r := rfl
@[simp] theorem State.getV_setEnded (s : State) (b : Bool) (r : Reg) : (s.setEnded b).getV r = s.getV r := rfl
@[simp] theorem State.getV_setKeys (s : State) (k : BitVec 16) (r : Reg) : (s.setKeys k).getV r = s.getV r := rfl
@[simp] theorem State.getV_raise (s : State) (f : Fault) (w : Word) (r : Reg) : (s.raise f w).getV r = s.getV r := rfl
@[simp] theorem State.getV_push (s : State) (w : Word) (r : Reg) : (s.push w).getV r = s.getV r := rfl
@[simp] theorem State.getV_popPc (s : State) (r : Reg) : s.popPc.getV r = s.getV r := rfl
@[simp] theorem State.getV_nextInput (s : State) (r : Reg) : s.nextInput.getV r = s.getV r := rfl
@[simp] theorem State.getV_withInput (s : State) (b : Byte) (c : Bool) (r : Reg) :
    (s.withInput b c).getV r = s.getV r := rfl

/-- R160: the register a flag-writing instruction leaves: the result in Vx, the flag in VF when x is not 0xF. -/
theorem State.getV_setFlagThen (s : State) (flag : Bool) (x q : Reg) (b : Byte) :
    (s.setFlagThen flag x b).getV q = if q = x then b else if q = 15 then flagByte flag else s.getV q := by
  simp only [State.setFlagThen, State.getV_setV]; rfl

/-- A flag-writing instruction touches nothing but the registers. -/
theorem State.setFlagThen_eq (s : State) (flag : Bool) (x : Reg) (b : Byte) :
    s.setFlagThen flag x b = { s with v := (s.setFlagThen flag x b).v } := rfl

@[simp] theorem flagByte_true : flagByte true = 1 := rfl
@[simp] theorem flagByte_false : flagByte false = 0 := rfl

/-! ## The register block (R194, R195) -/

theorem State.length_block (s : State) (x : Reg) : (s.block x).length = x.val + 1 := by
  have := x.isLt
  simp only [State.block, List.length_take, Vector.length_toList]; omega

theorem State.getElem_block (s : State) (x : Reg) {k : Nat} (h : k < (s.block x).length) :
    (s.block x)[k] = s.getV ⟨k, by have := s.length_block x; omega⟩ := by
  simp [State.block, State.getV]

/-- A block load touches nothing but the registers. -/
theorem State.setBlock_eq (bs : List Byte) : ∀ (s : State) (k : Nat),
    s.setBlock k bs = { s with v := (s.setBlock k bs).v } := by
  induction bs with
  | nil => intro s k; rfl
  | cons b bs ih => intro s k; rw [State.setBlock, ih]; rfl

/-- R195: register q holds the byte of its place in the block; a register outside the block keeps its value. -/
theorem State.getV_setBlock (bs : List Byte) : ∀ (s : State) (k : Nat) (q : Reg), k + bs.length ≤ 16 →
    (s.setBlock k bs).getV q = if h : k ≤ q.val ∧ q.val < k + bs.length then bs[q.val - k] else s.getV q := by
  induction bs with
  | nil => intro s k q _; have : ¬ (k ≤ q.val ∧ q.val < k) := by omega
           simp [State.setBlock, this]
  | cons b bs ih =>
    intro s k q hk
    simp only [List.length_cons] at hk
    rw [State.setBlock, ih _ _ _ (by omega), State.getV_setV]
    have hf : q = Fin.ofNat 16 k ↔ q.val = k := by
      rw [Fin.ext_iff, Fin.val_ofNat, Nat.mod_eq_of_lt (by omega)]
    by_cases hq : q.val = k
    · rw [dif_neg (by omega), if_pos (hf.2 hq), dif_pos (by simp only [List.length_cons]; omega)]
      simp [hq]
    · by_cases hi : k + 1 ≤ q.val ∧ q.val < k + 1 + bs.length
      · have he : q.val - k = q.val - (k + 1) + 1 := by omega
        rw [dif_pos hi, dif_pos (by simp only [List.length_cons]; omega)]
        simp only [he, List.getElem_cons_succ]
      · rw [dif_neg hi, if_neg (fun e => hq (hf.1 e)), dif_neg (by simp only [List.length_cons]; omega)]

/-! ## Skips, stack, keys -/

theorem State.skipIf_eq (s : State) (c : Bool) : s.skipIf c = s.setPc (if c then s.pc + 2 else s.pc) := by
  cases c <;> rfl

theorem stackIndex_of_lt {p : BitVec 5} {k : Fin 16} (h : p.toNat = k.val) : stackIndex p = k := by
  apply Fin.ext; simp [stackIndex, h]

/-- A push at depth k (R142). -/
theorem State.push_at (s : State) (w : Word) (k : Fin 16) (h : s.sp.toNat = k.val) :
    (s.push w).stack = s.stack.set k w ∧ (s.push w).sp.toNat = k.val + 1 := by
  have hk := k.isLt
  refine ⟨by simp [stackIndex_of_lt h], ?_⟩
  simp [BitVec.toNat_add, h]; omega

/-- A pop from depth k + 1 (R140). -/
theorem State.popPc_at (s : State) (k : Fin 16) (h : s.sp.toNat = k.val + 1) :
    s.popPc.pc = s.stack[k] ∧ s.popPc.sp.toNat = k.val := by
  have hk := k.isLt
  have hs : (s.sp - 1).toNat = k.val := by rw [BitVec.toNat_sub]; simp [h]; omega
  exact ⟨congrArg (fun j : Fin 16 => s.stack[j]) (stackIndex_of_lt hs), by simpa using hs⟩

/-- R225: the key found is held, and every higher one is not. -/
theorem highestKey_eq_some {keys : BitVec 16} {n k : Nat} : highestKey keys n = some k ↔
    k < n ∧ keys.getLsbD k = true ∧ ∀ j, k < j → j < n → keys.getLsbD j = false := by
  induction n with
  | zero => simp [highestKey]
  | succ n ih =>
    rw [highestKey]
    split
    · next h =>
      constructor
      · rintro ⟨rfl⟩; exact ⟨by omega, h, fun j _ _ => by omega⟩
      · rintro ⟨h1, h2, h3⟩
        by_cases hk : k = n
        · rw [hk]
        · have := h3 n (by omega) (by omega); simp_all
    · next h =>
      rw [ih]
      constructor
      · rintro ⟨h1, h2, h3⟩
        refine ⟨by omega, h2, fun j hj hn => ?_⟩
        by_cases e : j = n
        · simpa [e] using h
        · exact h3 j hj (by omega)
      · rintro ⟨h1, h2, h3⟩
        have : k ≠ n := by rintro rfl; exact h h2
        exact ⟨by omega, h2, fun j hj hn => h3 j hj (by omega)⟩

/-- R225: no key is found exactly when the sample is 0. -/
theorem highestKey_eq_none {keys : BitVec 16} {n : Nat} :
    highestKey keys n = none ↔ ∀ j, j < n → keys.getLsbD j = false := by
  induction n with
  | zero => simp [highestKey]
  | succ n ih =>
    rw [highestKey]
    split
    · next h => simp only [reduceCtorEq, false_iff, not_forall]; exact ⟨n, by omega, by simp [h]⟩
    · next h =>
      rw [ih]
      refine ⟨fun H j hj => ?_, fun H j hj => H j (by omega)⟩
      by_cases e : j = n
      · simpa [e] using h
      · exact H j (by omega)

theorem highestKey_none_iff_zero {keys : BitVec 16} : highestKey keys 16 = none ↔ keys = 0 := by
  rw [highestKey_eq_none]
  refine ⟨fun h => BitVec.eq_of_getLsbD_eq fun j hj => ?_, fun h => by simp [h]⟩
  simpa using h j hj

/-! ## Timers -/

theorem decTimer_toNat (b : Byte) : (decTimer b).toNat = b.toNat - 1 := by
  unfold decTimer
  split
  · next h => simp [h]
  · next h =>
    have : b.toNat ≠ 0 := fun e => h (BitVec.eq_of_toNat_eq (by simpa using e))
    have := b.isLt
    rw [BitVec.toNat_sub]; simp; omega

end Sys2Proof.Machine
end

