-- ==== Sys2Proof/Laws/Display.lean ====
section
/-! SUPPORT. What a sprite draw does to the framebuffer and to the collision flag, cell by cell (spec/44_display.md R211): no cell is touched twice. -/

namespace Sys2Proof.Machine

@[simp] theorem Framebuffer.get_clear (r : Fin 32) (c : Fin 64) : Framebuffer.clear.get r c = false := by
  simp [Framebuffer.clear, Framebuffer.get]

theorem Framebuffer.get_flip_same (f : Framebuffer) (r : Fin 32) (c : Fin 64) :
    (f.flip r c).get r c = !f.get r c := by
  simp [Framebuffer.flip, Framebuffer.get]

theorem Framebuffer.get_flip_ne (f : Framebuffer) {r r' : Fin 32} {c c' : Fin 64} (h : ¬ (r' = r ∧ c' = c)) :
    (f.flip r c).get r' c' = f.get r' c' := by
  by_cases hr : r' = r
  · subst hr
    have hc : c.val ≠ c'.val := fun e => h ⟨rfl, Fin.ext e.symm⟩
    simp [Framebuffer.flip, Framebuffer.get, hc]
  · have hr' : r.val ≠ r'.val := fun e => hr (Fin.ext e.symm)
    simp [Framebuffer.flip, Framebuffer.get, hr']

/-- One of the `k` lowest bits of a sprite byte at column x0 is set and falls on column `c`. -/
def ColHit (x0 : Nat) (b : Byte) (k : Nat) (c : Fin 64) : Prop :=
  ∃ j, j < k ∧ c = Fin.ofNat 64 (x0 + (7 - j)) ∧ b.getLsbD j = true

theorem colHit_succ {x0 : Nat} {b : Byte} {k : Nat} {c : Fin 64} : ColHit x0 b (k + 1) c ↔
    (c = Fin.ofNat 64 (x0 + (7 - k)) ∧ b.getLsbD k = true) ∨ ColHit x0 b k c := by
  constructor
  · rintro ⟨j, hj, h⟩
    by_cases e : j = k
    · exact .inl (e ▸ h)
    · exact .inr ⟨j, by omega, h⟩
  · rintro (h | ⟨j, hj, h⟩)
    · exact ⟨k, by omega, h⟩
    · exact ⟨j, by omega, h⟩

/-- The eight columns of a sprite byte are distinct modulo 64 (R211 case 4). -/
theorem not_colHit_of_eq {x0 : Nat} {b : Byte} {k : Nat} (hk : k < 8) :
    ¬ ColHit x0 b k (Fin.ofNat 64 (x0 + (7 - k))) := by
  rintro ⟨j, hj, h, _⟩
  have := congrArg Fin.val h
  simp only [Fin.val_ofNat] at this
  omega

theorem drawCols_row_ne {x0 : Nat} {row r : Fin 32} {b : Byte} (h : r ≠ row) (c : Fin 64) :
    ∀ (k : Nat) (p : Framebuffer × Bool), (drawCols x0 row b k p).1.get r c = p.1.get r c := by
  intro k
  induction k with
  | zero => intro p; rfl
  | succ k ih =>
    intro p
    rw [drawCols, ih]
    split
    · exact Framebuffer.get_flip_ne _ fun e => h e.1
    · rfl

theorem drawCols_get {x0 : Nat} {row : Fin 32} {b : Byte} : ∀ {k : Nat} (p : Framebuffer × Bool) (c : Fin 64), k ≤ 8 →
    (ColHit x0 b k c → (drawCols x0 row b k p).1.get row c = !p.1.get row c) ∧
    (¬ ColHit x0 b k c → (drawCols x0 row b k p).1.get row c = p.1.get row c) := by
  intro k
  induction k with
  | zero => intro p c _; exact ⟨fun ⟨j, hj, _⟩ => by omega, fun _ => rfl⟩
  | succ k ih =>
    intro p c hk
    rw [drawCols, colHit_succ]
    by_cases hb : b.getLsbD k = true
    · rw [if_pos hb]
      have ih := ih (drawPixel row (Fin.ofNat 64 (x0 + (7 - k))) p) c (by omega)
      by_cases hc : c = Fin.ofNat 64 (x0 + (7 - k))
      · have hn := not_colHit_of_eq (x0 := x0) (b := b) (k := k) (by omega)
        refine ⟨fun _ => ?_, fun h => absurd (.inl ⟨hc, hb⟩) h⟩
        rw [ih.2 (hc ▸ hn), hc]
        exact Framebuffer.get_flip_same _ _ _
      · have hf : (drawPixel row (Fin.ofNat 64 (x0 + (7 - k))) p).1.get row c = p.1.get row c :=
          Framebuffer.get_flip_ne _ fun e => hc e.2
        rw [hf] at ih
        exact ⟨fun h => ih.1 (h.resolve_left fun e => hc e.1), fun h => ih.2 fun e => h (.inr e)⟩
    · rw [if_neg hb]
      have ih := ih p c (by omega)
      exact ⟨fun h => ih.1 (h.resolve_left fun e => hb e.2), fun h => ih.2 fun e => h (.inr e)⟩

theorem drawCols_hit {x0 : Nat} {row : Fin 32} {b : Byte} : ∀ {k : Nat} (p : Framebuffer × Bool), k ≤ 8 →
    ((drawCols x0 row b k p).2 = true ↔ p.2 = true ∨ ∃ c, ColHit x0 b k c ∧ p.1.get row c = true) := by
  intro k
  induction k with
  | zero => intro p _; exact ⟨.inl, fun h => h.elim id fun ⟨_, ⟨j, hj, _⟩, _⟩ => by omega⟩
  | succ k ih =>
    intro p hk
    rw [drawCols]
    by_cases hb : b.getLsbD k = true
    · rw [if_pos hb, ih _ (by omega)]
      have hn := not_colHit_of_eq (x0 := x0) (b := b) (k := k) (by omega)
      have hne : ∀ c, ColHit x0 b k c →
          (drawPixel row (Fin.ofNat 64 (x0 + (7 - k))) p).1.get row c = p.1.get row c := fun c hc =>
        Framebuffer.get_flip_ne _ fun e => hn (e.2 ▸ hc)
      simp only [drawPixel, Bool.or_eq_true]
      constructor
      · rintro ((h | h) | ⟨c, hc, h⟩)
        · exact .inl h
        · exact .inr ⟨_, colHit_succ.2 (.inl ⟨rfl, hb⟩), h⟩
        · exact .inr ⟨c, colHit_succ.2 (.inr hc), (hne c hc).symm.trans h⟩
      · rintro (h | ⟨c, hc, h⟩)
        · exact .inl (.inl h)
        · rcases colHit_succ.1 hc with ⟨rfl, _⟩ | hc
          · exact .inl (.inr h)
          · exact .inr ⟨c, hc, (hne c hc).trans h⟩
    · rw [if_neg hb, ih _ (by omega)]
      refine or_congr_right (exists_congr fun c => and_congr_left fun _ => ?_)
      rw [colHit_succ]
      exact ⟨.inr, fun h => h.resolve_left fun e => hb e.2⟩

/-- The sprite drawn from row y down has a set bit on the cell (r, c). -/
def CellHit (x0 y : Nat) (bs : List Byte) (r : Fin 32) (c : Fin 64) : Prop :=
  ∃ i, ∃ h : i < bs.length, r = Fin.ofNat 32 (y + i) ∧ ColHit x0 bs[i] 8 c

theorem cellHit_cons {x0 y : Nat} {b : Byte} {bs : List Byte} {r : Fin 32} {c : Fin 64} : CellHit x0 y (b :: bs) r c ↔
    (r = Fin.ofNat 32 y ∧ ColHit x0 b 8 c) ∨ CellHit x0 (y + 1) bs r c := by
  constructor
  · rintro ⟨i, h, hr, hc⟩
    cases i with
    | zero => exact .inl ⟨by simpa using hr, by simpa using hc⟩
    | succ i => exact .inr ⟨i, by simpa using h, by rw [hr]; congr 1; omega, by simpa using hc⟩
  · rintro (⟨hr, hc⟩ | ⟨i, h, hr, hc⟩)
    · exact ⟨0, by simp, by simpa using hr, by simpa using hc⟩
    · exact ⟨i + 1, by simpa using h, by rw [hr]; congr 1; omega, by simpa using hc⟩

/-- The rows of a sprite of at most 32 rows are distinct modulo 32 (R211 case 4). -/
theorem not_cellHit_of_eq {x0 y : Nat} {bs : List Byte} (h : bs.length < 32) (c : Fin 64) :
    ¬ CellHit x0 (y + 1) bs (Fin.ofNat 32 y) c := by
  rintro ⟨i, hi, hr, _⟩
  have := congrArg Fin.val hr
  simp only [Fin.val_ofNat] at this
  omega

/-- R211: a drawn sprite flips exactly the cells it covers. -/
theorem drawRows_get {x0 : Nat} : ∀ {bs : List Byte} (y : Nat) (p : Framebuffer × Bool) (r : Fin 32) (c : Fin 64),
    bs.length ≤ 32 →
    (CellHit x0 y bs r c → (drawRows x0 y bs p).1.get r c = !p.1.get r c) ∧
    (¬ CellHit x0 y bs r c → (drawRows x0 y bs p).1.get r c = p.1.get r c) := by
  intro bs
  induction bs with
  | nil => intro y p r c _; exact ⟨fun ⟨i, h, _⟩ => absurd h (by simp), fun _ => rfl⟩
  | cons b bs ih =>
    intro y p r c hl
    simp only [List.length_cons] at hl
    rw [drawRows, cellHit_cons]
    have ih := ih (y + 1) (drawCols x0 (Fin.ofNat 32 y) b 8 p) r c (by omega)
    by_cases hr : r = Fin.ofNat 32 y
    · subst hr
      have hn := not_cellHit_of_eq (x0 := x0) (y := y) (bs := bs) (by omega) c
      have hc := drawCols_get (x0 := x0) (row := Fin.ofNat 32 y) (b := b) p c (Nat.le_refl 8)
      rw [ih.2 hn]
      exact ⟨fun h => hc.1 (h.resolve_right hn).2, fun h => hc.2 fun e => h (.inl ⟨rfl, e⟩)⟩
    · rw [drawCols_row_ne hr c 8 p] at ih
      exact ⟨fun h => ih.1 (h.resolve_left fun e => hr e.1), fun h => ih.2 fun e => h (.inr e)⟩

/-- R211: the collision flag is raised exactly when a covered cell was set. -/
theorem drawRows_hit {x0 : Nat} : ∀ {bs : List Byte} (y : Nat) (p : Framebuffer × Bool), bs.length ≤ 32 →
    ((drawRows x0 y bs p).2 = true ↔ p.2 = true ∨ ∃ r c, CellHit x0 y bs r c ∧ p.1.get r c = true) := by
  intro bs
  induction bs with
  | nil => intro y p _; exact ⟨.inl, fun h => h.elim id fun ⟨_, _, ⟨i, h, _⟩, _⟩ => absurd h (by simp)⟩
  | cons b bs ih =>
    intro y p hl
    simp only [List.length_cons] at hl
    rw [drawRows, ih _ _ (by omega), drawCols_hit p (Nat.le_refl 8)]
    have hn := not_cellHit_of_eq (x0 := x0) (y := y) (bs := bs) (by omega)
    constructor
    · rintro ((h | ⟨c, hc, h⟩) | ⟨r, c, hc, h⟩)
      · exact .inl h
      · exact .inr ⟨_, c, cellHit_cons.2 (.inl ⟨rfl, hc⟩), h⟩
      · have hr : r ≠ Fin.ofNat 32 y := fun e => hn c (e ▸ hc)
        rw [drawCols_row_ne hr] at h
        exact .inr ⟨r, c, cellHit_cons.2 (.inr hc), h⟩
    · rintro (h | ⟨r, c, hc, h⟩)
      · exact .inl (.inl h)
      · rcases cellHit_cons.1 hc with ⟨rfl, hb⟩ | hb
        · exact .inl (.inr ⟨c, hb, h⟩)
        · have hr : r ≠ Fin.ofNat 32 y := fun e => hn c (e ▸ hb)
          exact .inr ⟨r, c, hb, by rw [drawCols_row_ne hr]; exact h⟩

/-- The cells a sprite read from memory covers, in the terms of the statements. -/
theorem cellHit_readBytes (s : State) (x0 y0 : Byte) (n : Nat) (row : Fin 32) (col : Fin 64) :
    CellHit x0.toNat y0.toNat (s.mem.readBytes s.base n) row col ↔ SpriteCovers s x0 y0 n row col := by
  constructor
  · rintro ⟨i, hi, hr, j, hj, hc, hb⟩
    rw [Memory.length_readBytes] at hi
    refine ⟨i, 7 - j, hi, by omega, by rw [hr]; rfl, by rw [hc]; rfl, ?_⟩
    rw [Memory.getElem_readBytes] at hb
    simpa [show 7 - (7 - j) = j by omega, State.base] using hb
  · rintro ⟨i, k, hi, hk, hr, hc, hb⟩
    refine ⟨i, by simpa using hi, Fin.ext hr, 7 - k, by omega, Fin.ext ?_, by simpa [State.base] using hb⟩
    rw [hc, Fin.val_ofNat, show 7 - (7 - k) = k by omega]

end Sys2Proof.Machine
end

