-- ==== Sys2Proof/Laws/Step.lean ====
section
/-! SUPPORT. What a step can do, said once (spec/40_step.md R120): the four ways it ends, the fetch, and the phases after the instruction. -/

namespace Sys2Proof.Machine

/-- Every meaning answers a next state: no instruction stops the machine with an outcome of its own. -/
theorem exec_next (i : Instr) (s : State) : ∃ t, exec i s = .next t := by
  cases i <;> exact ⟨_, rfl⟩

/-! ## Fetch (R63, R122) -/

theorem State.fetch_ok (s : State) (h : s.pc.toNat ≤ 0xFFE) :
    s.fetch = .ok (wordOfBytes (s.mem.read s.pc.toNat) (s.mem.read (s.pc.toNat + 1))) := by
  simp only [State.fetch, State.memRead_ok s (.inr (by omega : s.pc.toNat + 2 ≤ 0x1000)), Memory.readBytes_two]
  rfl

theorem State.fetch_error (s : State) (h : 0xFFE < s.pc.toNat) :
    s.fetch = .error (BitVec.ofNat 16 (min (s.pc.toNat + 1) 0xFFFF)) := by
  simp only [State.fetch, State.memRead_error s (by decide : (2 : Nat) ≠ 0) (by omega : 0x1000 < s.pc.toNat + 2)]
  rfl

@[simp] theorem State.fetch_beginStep (s : State) : s.beginStep.fetch = s.fetch := rfl
@[simp] theorem State.fetch_withInput (s : State) (b : Byte) (c : Bool) : (s.withInput b c).fetch = s.fetch := rfl

/-- Whatever is no legal word is rejected under its own name (R101). -/
theorem decodeWord_error {w : Word} {e : DecodeReject} (h : decodeWord w = .error e) : e = .unknown w := by
  unfold decodeWord decodeOp0 decodeOp8 decodeOpE decodeOpF at h
  repeat' (first | cases h | rfl | split at h)

/-! ## The step -/

/-- The state phases P1 to P3 leave for the instruction: DRAW cleared, pc advanced (R121, R123). -/
def State.entry (s : State) : State := s.beginStep.setPc (s.pc + 2)

theorem stepWith_faulted {perStep : Bool} {s : State} {f : Fault} (h : s.fault.cause = some f) :
    stepWith perStep s = .fault f := by
  simp only [stepWith, h]

theorem stepWith_fetchFault {perStep : Bool} {s : State} {info : Word} (h : s.fault.cause = none)
    (hf : s.fetch = .error info) :
    stepWith perStep s = .next (s.beginStep.raiseAt s.pc .memoryOutOfRange info).nextInput := by
  simp only [stepWith, h, cycle, State.fetch_beginStep, hf]; rfl

theorem stepWith_unknown {perStep : Bool} {s : State} {w : Word} {e : DecodeReject} (h : s.fault.cause = none)
    (hf : s.fetch = .ok w) (hd : decodeWord w = .error e) :
    stepWith perStep s = .next (s.entry.raise .unknownOpcode w).nextInput := by
  simp only [stepWith, h, cycle, State.fetch_beginStep, hf, hd]; rfl

/-- The step runs the decoded instruction: P1 to P3, `exec`, then P6 and P7 unless it raised. -/
theorem stepWith_exec {perStep : Bool} {s t : State} {w : Word} {i : Instr} (h : s.fault.cause = none)
    (hf : s.fetch = .ok w) (hd : decodeWord w = .ok i) (he : exec i s.entry = .next t) :
    stepWith perStep s = .next (finishStep perStep t).nextInput := by
  have he : exec i (s.beginStep.setPc (s.beginStep.pc + 2)) = .next t := he
  simp only [stepWith, h, cycle, State.fetch_beginStep, hf, hd, he]

/-- The inversion of a step: a step that answers next ended in one of three ways, and no fault was recorded. -/
theorem stepWith_cases {perStep : Bool} {s t : State} (h : stepWith perStep s = .next t) :
    s.fault.cause = none ∧
    ((∃ info, s.fetch = .error info ∧ t = (s.beginStep.raiseAt s.pc .memoryOutOfRange info).nextInput) ∨
     (∃ w, s.fetch = .ok w ∧ decodeWord w = .error (.unknown w) ∧ t = (s.entry.raise .unknownOpcode w).nextInput) ∨
     (∃ w i u, s.fetch = .ok w ∧ decodeWord w = .ok i ∧ exec i s.entry = .next u ∧
        t = (finishStep perStep u).nextInput)) := by
  cases hc : s.fault.cause with
  | some f => rw [stepWith_faulted hc] at h; cases h
  | none =>
    refine ⟨rfl, ?_⟩
    cases hf : s.fetch with
    | error info => rw [stepWith_fetchFault hc hf] at h; cases h; exact .inl ⟨info, rfl, rfl⟩
    | ok w =>
      cases hd : decodeWord w with
      | error e =>
        have := decodeWord_error hd
        rw [stepWith_unknown hc hf hd] at h; cases h; exact .inr (.inl ⟨w, rfl, this ▸ hd, rfl⟩)
      | ok i =>
        obtain ⟨u, hu⟩ := exec_next i s.entry
        rw [stepWith_exec hc hf hd hu] at h; cases h; exact .inr (.inr ⟨w, i, u, rfl, hd, hu, rfl⟩)

/-! ## The phases after the instruction (R125, R126, R128) -/

theorem finishStep_faulted {perStep : Bool} {s : State} (h : s.fault.cause ≠ none) : finishStep perStep s = s := by
  unfold finishStep; cases hc : s.fault.cause <;> simp_all

theorem finishStep_ok {perStep : Bool} {s : State} (h : s.fault.cause = none) :
    finishStep perStep s = (s.timerPhase perStep).endedPhase := by
  simp only [finishStep, h]

/-- Phases P6 and P7 touch DT, ST and ENDED only. -/
theorem finishStep_eq (perStep : Bool) (s : State) : finishStep perStep s =
    { s with dt := (finishStep perStep s).dt, st := (finishStep perStep s).st, ended := (finishStep perStep s).ended } := by
  unfold finishStep
  split
  · rfl
  · unfold State.timerPhase; split <;> rfl

theorem timerPhase_true (s : State) : s.timerPhase true = (s.setDt (decTimer s.dt)).setSt (decTimer s.st) := rfl

end Sys2Proof.Machine
end

