-- ==== Sys2Proof/Laws/Frame.lean ====
section
/-! SUPPORT. The frames of the shared operations, what an instruction can raise, what no instruction touches, and the inversion of a step in the terms of the statements. -/

namespace Sys2Proof.Machine

/-! ## Frames -/

theorem FrameBut.refl (s : State) (parts : List Part) : FrameBut s s parts := by
  intro p _; cases p <;> first | rfl | exact ⟨rfl, rfl, rfl⟩

theorem Part.same_trans {s t u : State} {p : Part} (h : p.same s t) (h' : p.same t u) : p.same s u := by
  cases p <;> first | exact h'.trans h | exact ⟨h'.1.trans h.1, h'.2.1.trans h.2.1, h'.2.2.trans h.2.2⟩

theorem Frame.trans {s t u : State} {c : Part → Prop} (h : Frame s t c) (h' : Frame t u c) : Frame s u c :=
  fun p hp => Part.same_trans (h p hp) (h' p hp)

theorem setV_frame (s : State) (x : Reg) (b : Byte) : FrameBut s (s.setV x b) [.v x] := by
  intro p hp
  cases p <;> first | exact ⟨rfl, rfl, rfl⟩ | rfl | skip
  exact State.getV_setV_ne s b (by simpa using hp)

theorem setFlagThen_frame (s : State) (f : Bool) (x : Reg) (b : Byte) :
    FrameBut s (s.setFlagThen f x b) [.v x, .v 15] := by
  intro p hp
  cases p <;> first | exact ⟨rfl, rfl, rfl⟩ | rfl | skip
  rename_i q
  have : ¬ (q = x ∨ q = 15) := by simpa using hp
  simp only [Part.same, State.getV_setFlagThen]
  simp_all

theorem setPc_frame (s : State) (w : Word) : FrameBut s (s.setPc w) [.pc] := by
  intro p hp
  cases p <;> first | (simp at hp; done) | exact ⟨rfl, rfl, rfl⟩ | rfl

theorem setI_frame (s : State) (w : Word) : FrameBut s (s.setI w) [.i] := by
  intro p hp
  cases p <;> first | (simp at hp; done) | exact ⟨rfl, rfl, rfl⟩ | rfl

theorem setDt_frame (s : State) (b : Byte) : FrameBut s (s.setDt b) [.dt] := by
  intro p hp
  cases p <;> first | (simp at hp; done) | exact ⟨rfl, rfl, rfl⟩ | rfl

theorem setSt_frame (s : State) (b : Byte) : FrameBut s (s.setSt b) [.st] := by
  intro p hp
  cases p <;> first | (simp at hp; done) | exact ⟨rfl, rfl, rfl⟩ | rfl

theorem setKeys_frame (s : State) (k : BitVec 16) : FrameBut s (s.setKeys k) [.keys] := by
  intro p hp
  cases p <;> first | (simp at hp; done) | exact ⟨rfl, rfl, rfl⟩ | rfl

/-- A block write changes the bytes of its block and nothing else. -/
theorem setMem_frame (s : State) (a : Nat) (bs : List Byte) :
    Frame s (s.setMem (s.mem.writeBytes a bs)) (fun p => ∃ k, k < bs.length ∧ p = .mem (a + k)) := by
  intro p hp
  cases p <;> first | exact ⟨rfl, rfl, rfl⟩ | rfl | skip
  rename_i b
  refine Memory.read_writeBytes_out _ ?_
  by_contra hc
  exact hp ⟨b - a, by omega, congrArg Part.mem (by omega)⟩

/-! ## The word at an address (R63) -/

theorem wordAt_eq (s : State) (a : Nat) : wordAt s a = wordOfBytes (s.mem.read a) (s.mem.read (a + 1)) := by
  have := (s.mem.read a).isLt
  have := (s.mem.read (a + 1)).isLt
  apply BitVec.eq_of_toNat_eq
  rw [wordAt, wordOfBytes, toNat_append, BitVec.toNat_ofNat]; omega

theorem fetch_wordAt {s : State} (h : s.pc.toNat ≤ 0xFFE) : s.fetch = .ok (wordAt s s.pc.toNat) := by
  rw [s.fetch_ok h, wordAt_eq]

theorem Executes.unique {s : State} {i j : Instr} (h : Executes s i) (h' : Executes s j) : i = j :=
  Except.ok.inj (h.2.2.symm.trans h'.2.2)

/-! ## What one instruction can do, said once -/

/-- An instruction leaves the fault record as it was, or raises its one fault with nothing else changed (R241, R248,
R250). -/
theorem exec_raise_cases {i : Instr} {s t : State} (h : exec i s = .next t) :
    t.fault = s.fault ∨
    (i = .ret ∧ s.sp = 0 ∧ t = s.raise .stackUnderflow 0) ∨
    ((∃ nnn, i = .call nnn) ∧ s.sp = 16 ∧ t = s.raise .stackOverflow 16) ∨
    (∃ last : Nat, 0xFFF < last ∧ t = s.raise .memoryOutOfRange (BitVec.ofNat 16 (min last 0xFFFF)) ∧
      ((∃ x y n, i = .drw x y n ∧ n ≠ 0 ∧ last = s.i.toNat + n.toNat - 1) ∨
       (∃ x, i = .ldB x ∧ last = s.i.toNat + 2) ∨
       (∃ x, i = .ldMemVx x ∧ last = s.i.toNat + x.val) ∨
       (∃ x, i = .ldVxMem x ∧ last = s.i.toNat + x.val))) := by
  cases i
  case ret =>
    simp only [exec, execRet] at h
    split at h <;> cases h
    · next hs => exact .inr (.inl ⟨rfl, hs, rfl⟩)
    · exact .inl rfl
  case call nnn =>
    simp only [exec, execCall] at h
    split at h <;> cases h
    · next hs => exact .inr (.inr (.inl ⟨⟨_, rfl⟩, hs, rfl⟩))
    · exact .inl rfl
  case ldB x =>
    simp only [exec, execLdB] at h
    by_cases hr : s.i.toNat + 3 ≤ 0x1000
    · rw [State.storeOrFault_ok _ (.inr hr)] at h; cases h; exact .inl rfl
    · rw [State.storeOrFault_error _ (by simp [bcdDigits]) (show 0x1000 < s.i.toNat + 3 by omega)] at h; cases h
      exact .inr (.inr (.inr ⟨s.i.toNat + 2, by omega, rfl, .inr (.inl ⟨x, rfl, rfl⟩)⟩))
  case ldMemVx x =>
    have hl := s.length_block x
    simp only [exec, execLdMemVx] at h
    by_cases hr : s.i.toNat + x.val ≤ 0xFFF
    · rw [State.storeOrFault_ok _ (.inr (by rw [hl]; show s.i.toNat + _ ≤ _; omega))] at h; cases h; exact .inl rfl
    · rw [State.storeOrFault_error _ (by omega) (by rw [hl]; show _ < s.i.toNat + _; omega)] at h; cases h
      exact .inr (.inr (.inr ⟨s.i.toNat + x.val, by omega, by rw [hl]; rfl, .inr (.inr (.inl ⟨x, rfl, rfl⟩))⟩))
  case ldVxMem x =>
    simp only [exec, execLdVxMem] at h
    by_cases hr : s.i.toNat + x.val ≤ 0xFFF
    · rw [State.loadOrFault_ok _ _ (.inr (by show s.i.toNat + _ ≤ _; omega))] at h
      cases h; rw [State.setBlock_eq]; exact .inl rfl
    · rw [State.loadOrFault_error _ _ (by omega) (by show _ < s.i.toNat + _; omega)] at h; cases h
      exact .inr (.inr (.inr ⟨s.i.toNat + x.val, by omega, rfl, .inr (.inr (.inr ⟨x, rfl, rfl⟩))⟩))
  case drw x y n =>
    simp only [exec, execDrw] at h
    by_cases hr : n.toNat = 0 ∨ s.base + n.toNat ≤ 0x1000
    · rw [State.loadOrFault_ok _ _ hr] at h; cases h; exact .inl rfl
    · rw [State.loadOrFault_error _ _ (by omega) (by omega)] at h; cases h
      have hb : s.base = s.i.toNat := rfl
      have hn : n ≠ 0 := fun e => hr (.inl (by rw [e]; rfl))
      exact .inr (.inr (.inr ⟨s.i.toNat + n.toNat - 1, by omega, rfl, .inl ⟨x, y, n, rfl, hn, rfl⟩⟩))
  case ldVxK x =>
    simp only [exec, execLdVxK] at h
    split at h <;> cases h <;> exact .inl rfl
  all_goals (cases h; first | exact .inl rfl | (rw [State.skipIf_eq]; exact .inl rfl))

/-- The other direction of `exec_raise_cases`: an access whose highest address exceeds 0xFFF raises MemoryOutOfRange,
and nothing else happens (R66, R243). -/
theorem exec_outOfRange {i : Instr} {s t : State} {last : Nat} (h : exec i s = .next t) (hl : 0xFFF < last)
    (hr : (∃ x y n, i = .drw x y n ∧ n ≠ 0 ∧ last = s.i.toNat + n.toNat - 1) ∨
      (∃ x, i = .ldB x ∧ last = s.i.toNat + 2) ∨
      (∃ x, i = .ldMemVx x ∧ last = s.i.toNat + x.val) ∨
      (∃ x, i = .ldVxMem x ∧ last = s.i.toNat + x.val)) :
    t = s.raise .memoryOutOfRange (BitVec.ofNat 16 (min last 0xFFFF)) := by
  rcases hr with ⟨x, y, n, rfl, hn, rfl⟩ | ⟨x, rfl, rfl⟩ | ⟨x, rfl, rfl⟩ | ⟨x, rfl, rfl⟩
  · have hn : n.toNat ≠ 0 := fun e => hn (BitVec.eq_of_toNat_eq (by simpa using e))
    simp only [exec, execDrw] at h
    rw [State.loadOrFault_error _ _ hn (by show _ < s.i.toNat + _; omega)] at h; cases h; rfl
  · simp only [exec, execLdB] at h
    rw [State.storeOrFault_error _ (by simp [bcdDigits]) (show 0x1000 < s.i.toNat + 3 by omega)] at h; cases h; rfl
  · have hb := s.length_block x
    simp only [exec, execLdMemVx] at h
    rw [State.storeOrFault_error _ (by omega) (by rw [hb]; show _ < s.i.toNat + _; omega)] at h; cases h; rw [hb]; rfl
  · simp only [exec, execLdVxMem] at h
    rw [State.loadOrFault_error _ _ (by omega) (by show _ < s.i.toNat + _; omega)] at h; cases h; rfl

/-- An instruction that ends with a fault recorded, on a core that had none, changed the record and nothing else. -/
theorem exec_raises {i : Instr} {s t : State} (h0 : s.fault.cause = none) (h : exec i s = .next t)
    (hf : t.fault.cause ≠ none) : ∃ f info, t = s.raise f info := by
  rcases exec_raise_cases h with e | ⟨_, _, e⟩ | ⟨_, _, e⟩ | ⟨_, _, e, _⟩
  · exact absurd (e ▸ h0) hf
  all_goals exact ⟨_, _, e⟩

/-- No instruction writes KEYS, ENDED or the inputs. -/
theorem exec_untouched {i : Instr} {s t : State} (h : exec i s = .next t) :
    t.keys = s.keys ∧ t.ended = s.ended ∧ t.rndIn = s.rndIn ∧ t.tickIn = s.tickIn ∧ t.stepNo = s.stepNo := by
  cases i
  case ret => simp only [exec, execRet] at h; split at h <;> cases h <;> exact ⟨rfl, rfl, rfl, rfl, rfl⟩
  case call nnn => simp only [exec, execCall] at h; split at h <;> cases h <;> exact ⟨rfl, rfl, rfl, rfl, rfl⟩
  case ldB x =>
    simp only [exec, execLdB, State.storeOrFault, State.memWrite] at h
    cases ha : accessFault s.base (bcdDigits (s.getV x)).length <;> rw [ha] at h <;> cases h <;>
      exact ⟨rfl, rfl, rfl, rfl, rfl⟩
  case ldMemVx x =>
    simp only [exec, execLdMemVx, State.storeOrFault, State.memWrite] at h
    cases ha : accessFault s.base (s.block x).length <;> rw [ha] at h <;> cases h <;> exact ⟨rfl, rfl, rfl, rfl, rfl⟩
  case ldVxMem x =>
    simp only [exec, execLdVxMem, State.loadOrFault, State.memRead] at h
    cases ha : accessFault s.base (x.val + 1) <;> rw [ha] at h <;> cases h
    · dsimp only; rw [State.setBlock_eq]; exact ⟨rfl, rfl, rfl, rfl, rfl⟩
    · exact ⟨rfl, rfl, rfl, rfl, rfl⟩
  case drw x y n =>
    simp only [exec, execDrw, State.loadOrFault, State.memRead] at h
    cases ha : accessFault s.base n.toNat <;> rw [ha] at h <;> cases h <;> exact ⟨rfl, rfl, rfl, rfl, rfl⟩
  case ldVxK x => simp only [exec, execLdVxK] at h; split at h <;> cases h <;> exact ⟨rfl, rfl, rfl, rfl, rfl⟩
  all_goals (cases h; first | exact ⟨rfl, rfl, rfl, rfl, rfl⟩ | simp [State.skipIf_eq])

/-- A block load reads no input. -/
theorem State.setBlock_inputs (q : Inputs) (bs : List Byte) : ∀ (s : State) (k : Nat),
    State.setBlock { s with toInputs := q } k bs = { s.setBlock k bs with toInputs := q } := by
  induction bs with
  | nil => intro s k; rfl
  | cons b bs ih => intro s k; exact ih (s.setV (Fin.ofNat 16 k) b) (k + 1)

/-- R35: an instruction reads nothing of the inputs but the random byte, and that only if it is `RND`: with other inputs
it does the same and carries them along. -/
theorem exec_inputs {i : Instr} {s t : State} (q : Inputs) (hq : q.rndIn = s.rndIn ∨ ∀ x kk, i ≠ .rnd x kk)
    (h : exec i s = .next t) : exec i { s with toInputs := q } = .next { t with toInputs := q } := by
  cases i
  case rnd x kk =>
    cases h
    rcases hq with e | e
    · simp only [exec, execRnd, e]; rfl
    · exact absurd rfl (e x kk)
  case ret =>
    simp only [exec, execRet] at h ⊢
    split at h <;> cases h <;> (rename_i hs; simp only [hs, if_true, if_false]; rfl)
  case call nnn =>
    simp only [exec, execCall] at h ⊢
    split at h <;> cases h <;> (rename_i hs; simp only [hs, if_true, if_false]; rfl)
  case ldB x =>
    simp only [exec, execLdB, State.storeOrFault, State.memWrite] at h ⊢
    rw [show State.base { s with toInputs := q } = s.base from rfl,
      show State.getV { s with toInputs := q } x = s.getV x from rfl]
    cases ha : accessFault s.base (bcdDigits (s.getV x)).length <;> rw [ha] at h <;> cases h <;> rfl
  case ldMemVx x =>
    simp only [exec, execLdMemVx, State.storeOrFault, State.memWrite] at h ⊢
    rw [show State.base { s with toInputs := q } = s.base from rfl,
      show State.block { s with toInputs := q } x = s.block x from rfl]
    cases ha : accessFault s.base (s.block x).length <;> rw [ha] at h <;> cases h <;> rfl
  case ldVxMem x =>
    simp only [exec, execLdVxMem, State.loadOrFault, State.memRead] at h ⊢
    rw [show State.base { s with toInputs := q } = s.base from rfl]
    cases ha : accessFault s.base (x.val + 1) <;> rw [ha] at h <;> cases h
    · exact congrArg Host.Outcome.next (State.setBlock_inputs q _ s 0)
    · rfl
  case drw x y n =>
    simp only [exec, execDrw, State.loadOrFault, State.memRead] at h ⊢
    rw [show State.base { s with toInputs := q } = s.base from rfl]
    cases ha : accessFault s.base n.toNat <;> rw [ha] at h <;> cases h <;> rfl
  case ldVxK x =>
    simp only [exec, execLdVxK] at h ⊢
    cases hk : highestKey s.keys 16 <;> rw [hk] at h <;> cases h <;> rfl
  all_goals
    cases h
    first
    | rfl
    | (simp only [exec, execSeByte, execSneByte, execSeReg, execSneReg, execSkp, execSknp, State.skipIf_eq]; rfl)

/-- Every instruction keeps the canonical form of MEM. -/
theorem exec_mem_wf {i : Instr} {s t : State} (h : exec i s = .next t) (hm : s.mem.wf = true) : t.mem.wf = true := by
  cases i
  case ret => simp only [exec, execRet] at h; split at h <;> cases h <;> exact hm
  case call nnn => simp only [exec, execCall] at h; split at h <;> cases h <;> exact hm
  case ldB x => simp only [exec, execLdB] at h; cases h; exact State.wf_storeOrFault _ _ hm
  case ldMemVx x => simp only [exec, execLdMemVx] at h; cases h; exact State.wf_storeOrFault _ _ hm
  case ldVxMem x =>
    simp only [exec, execLdVxMem, State.loadOrFault, State.memRead] at h
    cases ha : accessFault s.base (x.val + 1) <;> rw [ha] at h <;> cases h
    · dsimp only; rw [State.setBlock_eq]; exact hm
    · exact hm
  case drw x y n =>
    simp only [exec, execDrw, State.loadOrFault, State.memRead] at h
    cases ha : accessFault s.base n.toNat <;> rw [ha] at h <;> cases h <;> exact hm
  case ldVxK x => simp only [exec, execLdVxK] at h; split at h <;> cases h <;> exact hm
  all_goals (cases h; first | exact hm | (rw [State.skipIf_eq]; exact hm))

/-! ## What one step can do, in the terms of the statements -/

theorem finishStep_fault (perStep : Bool) (u : State) : (finishStep perStep u).fault = u.fault := by
  rw [finishStep_eq]

theorem finishStep_dt {u : State} (h : u.fault.cause = none) : (finishStep true u).dt = decTimer u.dt := by
  rw [finishStep_ok h, timerPhase_true]; rfl

theorem finishStep_st {u : State} (h : u.fault.cause = none) : (finishStep true u).st = decTimer u.st := by
  rw [finishStep_ok h, timerPhase_true]; rfl

theorem finishStep_ended {perStep : Bool} {u : State} (h : u.fault.cause = none) :
    (finishStep perStep u).ended = u.nextWordZero := by
  rw [finishStep_ok h]; unfold State.timerPhase; split <;> rfl

/-- Phases P6 and P7 change DT, ST and ENDED only. -/
theorem finishStep_frame (perStep : Bool) (u : State) : FrameBut u (finishStep perStep u) [.dt, .st, .ended] := by
  rw [finishStep_eq]
  intro p hp
  cases p <;> first | (simp at hp; done) | exact ⟨rfl, rfl, rfl⟩ | rfl

theorem stepWith_executes {perStep : Bool} {s t : State} {i : Instr} (h : Executes s i)
    (he : exec i (entryState s) = .next t) : stepWith perStep s = .next (finishStep perStep t).nextInput :=
  stepWith_exec h.1 (fetch_wordAt h.2.1) h.2.2 he

/-- The inversion of a step: a fetch fault, an illegal word, or the instruction at pc. -/
theorem stepWith_inv {perStep : Bool} {s t : State} (h : stepWith perStep s = .next t) : s.fault.cause = none ∧
    ((0xFFE < s.pc.toNat ∧ t =
        (s.beginStep.raiseAt s.pc .memoryOutOfRange (BitVec.ofNat 16 (min (s.pc.toNat + 1) 0xFFFF))).nextInput) ∨
     (s.pc.toNat ≤ 0xFFE ∧ decodeWord (wordAt s s.pc.toNat) = .error (.unknown (wordAt s s.pc.toNat)) ∧
        t = ((entryState s).raise .unknownOpcode (wordAt s s.pc.toNat)).nextInput) ∨
     (∃ i u, Executes s i ∧ exec i (entryState s) = .next u ∧ t = (finishStep perStep u).nextInput)) := by
  obtain ⟨h0, h⟩ := stepWith_cases h
  refine ⟨h0, ?_⟩
  by_cases hp : s.pc.toNat ≤ 0xFFE
  · rw [fetch_wordAt hp] at h
    rcases h with ⟨_, h, _⟩ | ⟨w, h, h1, h2⟩ | ⟨w, i, u, h, h1, h2, h3⟩
    · cases h
    · cases h; exact .inr (.inl ⟨hp, h1, h2⟩)
    · cases h; exact .inr (.inr ⟨i, u, ⟨h0, hp, h1⟩, h2, h3⟩)
  · rw [s.fetch_error (by omega)] at h
    rcases h with ⟨_, h, h1⟩ | ⟨w, h, _⟩ | ⟨w, i, u, h, _⟩
    · cases h; exact .inl ⟨by omega, h1⟩
    · cases h
    · cases h

/-- One step of a run peeled off. -/
theorem run_succ {n : Nat} {s t : State} (h : step s = .next t) :
    Host.Core.run Sys2Proof.core (n + 1) s = Host.Core.run Sys2Proof.core n t := by
  have h : Sys2Proof.core.step s = .next t := h
  simp only [Host.Core.run, h]

end Sys2Proof.Machine
end

