-- ==== Sys2Proof/Laws/PerInstr.lean ====
section
/-! SUPPORT. Facts made per instruction: the word of every instruction stands in its own row of the opcode table (spec/30_encoding.md R100). -/

namespace Sys2Proof

/-- The bits of a word under the mask of a row keyed by OP alone. -/
theorem and_mask_OP (w : Word) : w &&& 0xF000 = wordA (fieldOP w) 0 := by
  apply BitVec.eq_of_getLsbD_eq
  intro i hi
  simp only [wordA, fieldOP, BitVec.getLsbD_and, BitVec.getLsbD_append, BitVec.getLsbD_extractLsb']
  interval_cases i <;> simp

/-- The bits of a word under the mask of a row keyed by OP and N. -/
theorem and_mask_OP_N (w : Word) : w &&& 0xF00F = wordXYN (fieldOP w) 0 0 (fieldN w) := by
  apply BitVec.eq_of_getLsbD_eq
  intro i hi
  simp only [wordXYN, fieldOP, fieldN, BitVec.getLsbD_and, BitVec.getLsbD_append, BitVec.getLsbD_extractLsb']
  interval_cases i <;> simp

/-- The bits of a word under the mask of a row keyed by OP and KK. -/
theorem and_mask_OP_KK (w : Word) : w &&& 0xF0FF = wordXK (fieldOP w) 0 (fieldKK w) := by
  apply BitVec.eq_of_getLsbD_eq
  intro i hi
  simp only [wordXK, fieldOP, fieldKK, BitVec.getLsbD_and, BitVec.getLsbD_append, BitVec.getLsbD_extractLsb']
  interval_cases i <;> simp

end Sys2Proof

namespace Sys2Proof.Laws.TableRow

/-- The instruction's word matches the row of its own mnemonic: `w & mask == match` (R100). -/
def Statement (i : Instr) : Prop :=
  ∃ mask pattern : Word, (i.mnemonic, mask, pattern) ∈ opcodeTable ∧ encodeWord i &&& mask = pattern

theorem cls : Statement (.cls) :=
  ⟨0xFFFF, 0x00E0, by simp [opcodeTable, Instr.mnemonic], rfl⟩

theorem ret : Statement (.ret) :=
  ⟨0xFFFF, 0x00EE, by simp [opcodeTable, Instr.mnemonic], rfl⟩

theorem jp (nnn : Addr) : Statement (.jp nnn) :=
  ⟨0xF000, 0x1000, by simp [opcodeTable, Instr.mnemonic], by rw [and_mask_OP]; simp [encodeWord]; rfl⟩

theorem call (nnn : Addr) : Statement (.call nnn) :=
  ⟨0xF000, 0x2000, by simp [opcodeTable, Instr.mnemonic], by rw [and_mask_OP]; simp [encodeWord]; rfl⟩

theorem seByte (x : Reg) (kk : Byte) : Statement (.seByte x kk) :=
  ⟨0xF000, 0x3000, by simp [opcodeTable, Instr.mnemonic], by rw [and_mask_OP]; simp [encodeWord]; rfl⟩

theorem sneByte (x : Reg) (kk : Byte) : Statement (.sneByte x kk) :=
  ⟨0xF000, 0x4000, by simp [opcodeTable, Instr.mnemonic], by rw [and_mask_OP]; simp [encodeWord]; rfl⟩

theorem seReg (x y : Reg) (n : Nibble) : Statement (.seReg x y n) :=
  ⟨0xF000, 0x5000, by simp [opcodeTable, Instr.mnemonic], by rw [and_mask_OP]; simp [encodeWord]; rfl⟩

theorem ldByte (x : Reg) (kk : Byte) : Statement (.ldByte x kk) :=
  ⟨0xF000, 0x6000, by simp [opcodeTable, Instr.mnemonic], by rw [and_mask_OP]; simp [encodeWord]; rfl⟩

theorem addByte (x : Reg) (kk : Byte) : Statement (.addByte x kk) :=
  ⟨0xF000, 0x7000, by simp [opcodeTable, Instr.mnemonic], by rw [and_mask_OP]; simp [encodeWord]; rfl⟩

theorem ldReg (x y : Reg) : Statement (.ldReg x y) :=
  ⟨0xF00F, 0x8000, by simp [opcodeTable, Instr.mnemonic], by rw [and_mask_OP_N]; simp [encodeWord]; rfl⟩

theorem orReg (x y : Reg) : Statement (.orReg x y) :=
  ⟨0xF00F, 0x8001, by simp [opcodeTable, Instr.mnemonic], by rw [and_mask_OP_N]; simp [encodeWord]; rfl⟩

theorem andReg (x y : Reg) : Statement (.andReg x y) :=
  ⟨0xF00F, 0x8002, by simp [opcodeTable, Instr.mnemonic], by rw [and_mask_OP_N]; simp [encodeWord]; rfl⟩

theorem xorReg (x y : Reg) : Statement (.xorReg x y) :=
  ⟨0xF00F, 0x8003, by simp [opcodeTable, Instr.mnemonic], by rw [and_mask_OP_N]; simp [encodeWord]; rfl⟩

theorem addReg (x y : Reg) : Statement (.addReg x y) :=
  ⟨0xF00F, 0x8004, by simp [opcodeTable, Instr.mnemonic], by rw [and_mask_OP_N]; simp [encodeWord]; rfl⟩

theorem subReg (x y : Reg) : Statement (.subReg x y) :=
  ⟨0xF00F, 0x8005, by simp [opcodeTable, Instr.mnemonic], by rw [and_mask_OP_N]; simp [encodeWord]; rfl⟩

theorem shr (x y : Reg) : Statement (.shr x y) :=
  ⟨0xF00F, 0x8006, by simp [opcodeTable, Instr.mnemonic], by rw [and_mask_OP_N]; simp [encodeWord]; rfl⟩

theorem subnReg (x y : Reg) : Statement (.subnReg x y) :=
  ⟨0xF00F, 0x8007, by simp [opcodeTable, Instr.mnemonic], by rw [and_mask_OP_N]; simp [encodeWord]; rfl⟩

theorem shl (x y : Reg) : Statement (.shl x y) :=
  ⟨0xF00F, 0x800E, by simp [opcodeTable, Instr.mnemonic], by rw [and_mask_OP_N]; simp [encodeWord]; rfl⟩

theorem sneReg (x y : Reg) (n : Nibble) : Statement (.sneReg x y n) :=
  ⟨0xF000, 0x9000, by simp [opcodeTable, Instr.mnemonic], by rw [and_mask_OP]; simp [encodeWord]; rfl⟩

theorem ldI (nnn : Addr) : Statement (.ldI nnn) :=
  ⟨0xF000, 0xA000, by simp [opcodeTable, Instr.mnemonic], by rw [and_mask_OP]; simp [encodeWord]; rfl⟩

theorem jpV0 (nnn : Addr) : Statement (.jpV0 nnn) :=
  ⟨0xF000, 0xB000, by simp [opcodeTable, Instr.mnemonic], by rw [and_mask_OP]; simp [encodeWord]; rfl⟩

theorem rnd (x : Reg) (kk : Byte) : Statement (.rnd x kk) :=
  ⟨0xF000, 0xC000, by simp [opcodeTable, Instr.mnemonic], by rw [and_mask_OP]; simp [encodeWord]; rfl⟩

theorem drw (x y : Reg) (n : Nibble) : Statement (.drw x y n) :=
  ⟨0xF000, 0xD000, by simp [opcodeTable, Instr.mnemonic], by rw [and_mask_OP]; simp [encodeWord]; rfl⟩

theorem skp (x : Reg) : Statement (.skp x) :=
  ⟨0xF0FF, 0xE09E, by simp [opcodeTable, Instr.mnemonic], by rw [and_mask_OP_KK]; simp [encodeWord]; rfl⟩

theorem sknp (x : Reg) : Statement (.sknp x) :=
  ⟨0xF0FF, 0xE0A1, by simp [opcodeTable, Instr.mnemonic], by rw [and_mask_OP_KK]; simp [encodeWord]; rfl⟩

theorem ldVxDT (x : Reg) : Statement (.ldVxDT x) :=
  ⟨0xF0FF, 0xF007, by simp [opcodeTable, Instr.mnemonic], by rw [and_mask_OP_KK]; simp [encodeWord]; rfl⟩

theorem ldVxK (x : Reg) : Statement (.ldVxK x) :=
  ⟨0xF0FF, 0xF00A, by simp [opcodeTable, Instr.mnemonic], by rw [and_mask_OP_KK]; simp [encodeWord]; rfl⟩

theorem ldDTVx (x : Reg) : Statement (.ldDTVx x) :=
  ⟨0xF0FF, 0xF015, by simp [opcodeTable, Instr.mnemonic], by rw [and_mask_OP_KK]; simp [encodeWord]; rfl⟩

theorem ldSTVx (x : Reg) : Statement (.ldSTVx x) :=
  ⟨0xF0FF, 0xF018, by simp [opcodeTable, Instr.mnemonic], by rw [and_mask_OP_KK]; simp [encodeWord]; rfl⟩

theorem addI (x : Reg) : Statement (.addI x) :=
  ⟨0xF0FF, 0xF01E, by simp [opcodeTable, Instr.mnemonic], by rw [and_mask_OP_KK]; simp [encodeWord]; rfl⟩

theorem ldF (x : Reg) : Statement (.ldF x) :=
  ⟨0xF0FF, 0xF029, by simp [opcodeTable, Instr.mnemonic], by rw [and_mask_OP_KK]; simp [encodeWord]; rfl⟩

theorem ldB (x : Reg) : Statement (.ldB x) :=
  ⟨0xF0FF, 0xF033, by simp [opcodeTable, Instr.mnemonic], by rw [and_mask_OP_KK]; simp [encodeWord]; rfl⟩

theorem ldMemVx (x : Reg) : Statement (.ldMemVx x) :=
  ⟨0xF0FF, 0xF055, by simp [opcodeTable, Instr.mnemonic], by rw [and_mask_OP_KK]; simp [encodeWord]; rfl⟩

theorem ldVxMem (x : Reg) : Statement (.ldVxMem x) :=
  ⟨0xF0FF, 0xF065, by simp [opcodeTable, Instr.mnemonic], by rw [and_mask_OP_KK]; simp [encodeWord]; rfl⟩

end Sys2Proof.Laws.TableRow
end

