-- ==== Sys2Proof/Tests/Slice0.lean ====
section
/-! SUPPORT. Tests of one step on small states, with expected values from spec/95_test_vectors.md (its row named at each) or worked out by hand from the rule named, and a witness for the hypotheses of each statement. -/

namespace Sys2Proof.Tests

open Sys2Proof.Machine

/-- The reset state with some registers set. -/
def regs (l : List (Reg × Byte)) : State := l.foldl (fun s p => s.setV p.1 p.2) State.reset

/-- Bytes put in memory. -/
def put (s : State) (a : Nat) (bs : List Byte) : State := s.setMem (s.mem.writeBytes a bs)

/-- One step of the word `w` placed at pc, if it answers a next state. -/
def run (w : Nat) (s : State) : Option State := nextOf (step (s.withFetchWord 16 w))

/-- The cells of one row, the first `n` from the left. -/
def cells (s : State) (row : Fin 32) (n : Nat) : List Bool := (s.fb[row]).toList.take n

theorem reset_dark (row : Fin 32) (col : Fin 64) : State.reset.fb.get row col = false := by
  simp [State.reset, Framebuffer.get]

/-! ## Well-formedness (R99, R105): the assembler's form has 0 in the ignored bits -/

theorem test_wellFormed_seReg : (Instr.seReg 1 2 0).wellFormed = true ∧ (Instr.seReg 1 2 3).wellFormed = false := by decide
theorem test_wellFormed_sneReg : (Instr.sneReg 1 2 0).wellFormed = true ∧ (Instr.sneReg 1 2 15).wellFormed = false := by decide
theorem test_wellFormed_shr : (Instr.shr 1 0).wellFormed = true ∧ (Instr.shr 1 2).wellFormed = false := by decide
theorem test_wellFormed_shl : (Instr.shl 1 0).wellFormed = true ∧ (Instr.shl 1 15).wellFormed = false := by decide

/-! ## Decoding: a word of every constructor, written from the pattern column of R100 -/

theorem test_decode_flow :
    decodeWord 0x00EE = .ok .ret ∧ decodeWord 0x1ABC = .ok (.jp 0xABC) ∧ decodeWord 0x2300 = .ok (.call 0x300) ∧
    decodeWord 0x332A = .ok (.seByte 3 0x2A) ∧ decodeWord 0x432A = .ok (.sneByte 3 0x2A) ∧
    decodeWord 0x5127 = .ok (.seReg 1 2 7) ∧ decodeWord 0x9120 = .ok (.sneReg 1 2 0) ∧
    decodeWord 0xB300 = .ok (.jpV0 0x300) := ⟨rfl, rfl, rfl, rfl, rfl, rfl, rfl, rfl⟩

theorem test_decode_alu :
    decodeWord 0x6A2F = .ok (.ldByte 0xA 0x2F) ∧ decodeWord 0x7103 = .ok (.addByte 1 3) ∧
    decodeWord 0x8120 = .ok (.ldReg 1 2) ∧ decodeWord 0x8121 = .ok (.orReg 1 2) ∧ decodeWord 0x8122 = .ok (.andReg 1 2) ∧
    decodeWord 0x8123 = .ok (.xorReg 1 2) ∧ decodeWord 0x8124 = .ok (.addReg 1 2) ∧ decodeWord 0x8125 = .ok (.subReg 1 2) ∧
    decodeWord 0x8126 = .ok (.shr 1 2) ∧ decodeWord 0x8127 = .ok (.subnReg 1 2) ∧ decodeWord 0x812E = .ok (.shl 1 2) ∧
    decodeWord 0xC30F = .ok (.rnd 3 0x0F) := ⟨rfl, rfl, rfl, rfl, rfl, rfl, rfl, rfl, rfl, rfl, rfl, rfl⟩

theorem test_decode_memory :
    decodeWord 0xA2F0 = .ok (.ldI 0x2F0) ∧ decodeWord 0xF21E = .ok (.addI 2) ∧ decodeWord 0xF429 = .ok (.ldF 4) ∧
    decodeWord 0xF333 = .ok (.ldB 3) ∧ decodeWord 0xF255 = .ok (.ldMemVx 2) ∧ decodeWord 0xF265 = .ok (.ldVxMem 2) :=
  ⟨rfl, rfl, rfl, rfl, rfl, rfl⟩

theorem test_decode_display_timers_keys :
    decodeWord 0x00E0 = .ok .cls ∧ decodeWord 0xD7A5 = .ok (.drw 7 0xA 5) ∧ decodeWord 0xE19E = .ok (.skp 1) ∧
    decodeWord 0xE1A1 = .ok (.sknp 1) ∧ decodeWord 0xF307 = .ok (.ldVxDT 3) ∧ decodeWord 0xF50A = .ok (.ldVxK 5) ∧
    decodeWord 0xF315 = .ok (.ldDTVx 3) ∧ decodeWord 0xF318 = .ok (.ldSTVx 3) := ⟨rfl, rfl, rfl, rfl, rfl, rfl, rfl, rfl⟩

/-- 95_test_vectors.md section 2.7. -/
theorem test_fields : fieldOP 0xD7A5 = 0xD ∧ fieldX 0xD7A5 = 7 ∧ fieldY 0xD7A5 = 0xA ∧ fieldN 0xD7A5 = 5 ∧
    fieldKK 0xD7A5 = 0xA5 ∧ fieldNNN 0xD7A5 = 0x7A5 := by decide

/-- S-UNK-1 to 5, M-ILL-1 to 3, K-ILL-1 and 2, and the reserved N of OP 8 (R96). -/
theorem test_decode_illegal :
    [0x0000, 0x0123, 0x00E1, 0x00FF, 0xFFFF, 0xF1FF, 0xF000, 0xF175, 0xE100, 0xE19F, 0x8128, 0x812D, 0x812F].all
      (fun n => decodeTableWord 16 n == none) = true := by decide

/-- R63: the high byte stands first, and the bytes after the word are left over. -/
theorem test_decode_bytes : decode [0x23, 0x45, 0x67] = .ok (.call 0x345, [0x67]) ∧ decode [0x23] = .error .tooShort ∧
    encode (.drw 7 0xA 5) = [0xD7, 0xA5] := ⟨rfl, rfl, by decide⟩

/-! ## One step -/

/-- R140's example. -/
theorem test_ret : (run 0x00EE { State.reset with pc := 0x300, sp := 1, stack := State.reset.stack.set 0 0x202 }).map
    (fun t => (t.pc, t.sp, t.stack[0], t.fault.cause)) = some (0x202, 0, 0x202, none) := by decide
theorem test_ret_empty : (run 0x00EE State.reset).map (fun t => (t.pc, t.sp, t.fault)) =
    some (0x202, 0, { cause := some .stackUnderflow, addr := 0x200, info := 0 }) := by decide

/-- R141's example. -/
theorem test_jp : (run 0x1ABC State.reset).map (·.pc) = some 0xABC := by decide

/-- R142's example, and program P7's step 17. -/
theorem test_call : (run 0x2300 State.reset).map (fun t => (t.pc, t.sp, t.stack[0])) = some (0x300, 1, 0x202) := by decide
theorem test_call_full : (run 0x2200 { State.reset with sp := 16 }).map (fun t => (t.pc, t.sp, t.fault)) =
    some (0x202, 16, { cause := some .stackOverflow, addr := 0x200, info := 16 }) := by decide

/-- The examples of R143 to R147. -/
theorem test_seByte : (run 0x332A (regs [(3, 0x2A)])).map (·.pc) = some 0x204 ∧
    (run 0x332A (regs [(3, 0x2B)])).map (·.pc) = some 0x202 := by decide
theorem test_sneByte : (run 0x432A (regs [(3, 0x2A)])).map (·.pc) = some 0x202 ∧
    (run 0x432A (regs [(3, 0)])).map (·.pc) = some 0x204 := by decide
theorem test_seReg : (run 0x5120 (regs [(1, 7), (2, 7)])).map (·.pc) = some 0x204 ∧
    (run 0x512F (regs [(1, 7), (2, 8)])).map (·.pc) = some 0x202 := by decide
theorem test_sneReg : (run 0x9120 (regs [(1, 7), (2, 8)])).map (·.pc) = some 0x204 ∧
    (run 0x9125 (regs [(1, 7), (2, 7)])).map (·.pc) = some 0x202 := by decide
theorem test_jpV0 : (run 0xB300 (regs [(0, 4)])).map (·.pc) = some 0x304 := by decide
theorem test_jpV0_highest : (run 0xBFFF (regs [(0, 0xFF)])).map (fun t => (t.pc, t.ended)) = some (0x10FE, false) := by decide

/-- The examples of R161 to R166. -/
theorem test_ldByte : (run 0x6A2F State.reset).map (·.getV 0xA) = some 0x2F := by decide
theorem test_addByte : (run 0x7103 (regs [(1, 0xFE), (15, 9)])).map (fun t => (t.getV 1, t.getV 15)) = some (1, 9) := by decide
theorem test_ldReg : (run 0x8120 (regs [(2, 0x55)])).map (fun t => (t.getV 1, t.getV 2)) = some (0x55, 0x55) := by decide
theorem test_orReg : (run 0x8121 (regs [(1, 0x0F), (2, 0xF0), (15, 9)])).map (fun t => (t.getV 1, t.getV 15)) = some (0xFF, 9) := by
  decide
theorem test_andReg : (run 0x8122 (regs [(1, 0x3C), (2, 0x0F)])).map (·.getV 1) = some 0x0C := by decide
theorem test_xorReg : (run 0x8123 (regs [(1, 0xFF), (2, 0x0F)])).map (·.getV 1) = some 0xF0 := by decide

/-- E1; and R160 with x = 0xF: the result stays in VF. -/
theorem test_addReg : (run 0x8124 (regs [(1, 0xFF), (2, 0xFF)])).map (fun t => (t.getV 1, t.getV 15)) = some (0xFE, 1) := by
  decide
theorem test_addReg_into_VF : (run 0x8F24 (regs [(15, 0xFF), (2, 0xFF)])).map (·.getV 15) = some 0xFE := by decide

/-- R168's examples: a borrow, and equality, which gives flag 0 (E2). -/
theorem test_subReg : (run 0x8125 (regs [(1, 3), (2, 5)])).map (fun t => (t.getV 1, t.getV 15)) = some (0xFE, 0) := by decide
theorem test_subReg_equal : (run 0x8125 (regs [(1, 0x33), (2, 0x33), (15, 1)])).map (fun t => (t.getV 1, t.getV 15)) =
    some (0, 0) := by decide

/-- R169's example, Y ignored; R170's; R171's. -/
theorem test_shr : (run 0x8126 (regs [(1, 0xFF), (2, 6)])).map (fun t => (t.getV 1, t.getV 2, t.getV 15)) = some (0x7F, 6, 1) := by
  decide
theorem test_subnReg : (run 0x8127 (regs [(1, 3), (2, 5)])).map (fun t => (t.getV 1, t.getV 15)) = some (2, 1) := by decide
theorem test_subnReg_old_VF : (run 0x81F7 (regs [(1, 5), (15, 3)])).map (fun t => (t.getV 1, t.getV 15)) = some (0xFE, 0) := by
  decide
theorem test_shl : (run 0x810E (regs [(1, 0x81)])).map (fun t => (t.getV 1, t.getV 15)) = some (2, 1) := by decide
theorem test_shl_of_VF : (run 0x8F0E (regs [(15, 0x81)])).map (·.getV 15) = some 2 := by decide

/-- R172's example. -/
theorem test_rnd : (run 0xC30F { State.reset with rndIn := 0xB7 }).map (·.getV 3) = some 0x07 := by decide

/-- The examples of R190 to R192. -/
theorem test_ldI : (run 0xA2F0 State.reset).map (·.i) = some 0x2F0 := by decide
theorem test_addI : (run 0xF21E { regs [(2, 5), (15, 9)] with i := 0xFFE }).map (fun t => (t.i, t.getV 15)) = some (0x1003, 9) := by
  decide
theorem test_addI_wraps : (run 0xF21E { regs [(2, 2)] with i := 0xFFFF }).map (·.i) = some 1 := by decide
theorem test_ldF : (run 0xF429 (regs [(4, 0xA)])).map (·.i) = some 0x32 ∧
    (run 0xF429 (regs [(4, 0xFF)])).map (·.i) = some 0x4FB := by decide

/-- R193's example, and a digit store that does not fit. -/
theorem test_ldB : (run 0xF033 { regs [(0, 254)] with i := 0x300 }).map
    (fun t => (t.mem.readBytes 0x300 3, t.i, t.ended)) = some ([2, 5, 4], 0x300, true) := by decide
theorem test_ldB_outside : (run 0xF033 { regs [(0, 254)] with i := 0xFFE }).map (fun t => (t.mem.readBytes 0xFFE 2, t.fault)) =
    some ([0, 0], { cause := some .memoryOutOfRange, addr := 0x200, info := 0x1000 }) := by decide

/-- M-ST-6: the store is seen by the ended report; M-ST-5. -/
theorem test_ldMemVx : (run 0xF055 { regs [(0, 0x12)] with i := 0x202 }).map
    (fun t => (t.mem.readBytes 0x200 4, t.pc, t.ended, t.i)) = some ([0xF0, 0x55, 0x12, 0], 0x202, false, 0x202) := by decide
theorem test_ldMemVx_outside : (run 0xFF55 { regs [(0, 1)] with i := 0xFF1 }).map (fun t => (t.mem.readBytes 0xFF1 15, t.fault)) =
    some (List.replicate 15 0, { cause := some .memoryOutOfRange, addr := 0x200, info := 0x1000 }) := by decide

/-- M-LD-1 and M-LD-6. -/
theorem test_ldVxMem : (run 0xF265 (put { regs [(3, 0x77)] with i := 0x400 } 0x400 [1, 2, 3, 4])).map
    (fun t => (t.getV 0, t.getV 1, t.getV 2, t.getV 3, t.i)) = some (1, 2, 3, 0x77, 0x400) := by decide
theorem test_ldVxMem_outside : (run 0xF065 { regs [(0, 9)] with i := 0xFFFF }).map (fun t => (t.getV 0, t.fault)) =
    some (9, { cause := some .memoryOutOfRange, addr := 0x200, info := 0xFFFF }) := by decide

/-- D-CLS-1. -/
theorem test_cls : (run 0x00E0 { regs [(15, 1)] with fb := (State.reset.fb.flip 5 5).flip 31 63 }).map
    (fun t => (cells t 5 8, t.fb.get 31 63, t.getV 15, t.draw)) = some (List.replicate 8 false, false, 1, false) := by decide

/-- D-DRW-4: both axes wrap; D-DRW-7: a partial collision. -/
theorem test_drw_wraps : (run 0xD122 (put { regs [(1, 0x3E), (2, 0x1F)] with i := 0x300 } 0x300 [0xFF, 0x81])).map
    (fun t => (cells t 31 8, cells t 0 7, [t.fb.get 31 62, t.fb.get 31 63, t.fb.get 0 62, t.fb.get 0 63, t.draw],
      t.getV 15)) =
    some ([true, true, true, true, true, true, false, false], [false, false, false, false, false, true, false],
      [true, true, true, false, true], 0) := by decide
theorem test_drw_collides : (run 0xD121 (put { State.reset with i := 0x300, fb := (State.reset.fb.flip 0 1).flip 0 2 } 0x300
    [0xC0])).map (fun t => (cells t 0 4, t.getV 15, t.draw)) = some ([true, false, true, false], 1, true) := by decide

/-- T-GET-1, T-SET-1, T-SND-1. -/
theorem test_ldVxDT : (run 0xF107 { State.reset with dt := 0x20 }).map (fun t => (t.getV 1, t.dt)) = some (0x20, 0x1F) := by decide
theorem test_ldDTVx : (run 0xF115 (regs [(1, 0x3C)])).map (·.dt) = some 0x3B := by decide
theorem test_ldSTVx : (run 0xF118 { regs [(1, 0x3C)] with dt := 2 }).map (fun t => (t.st, t.dt)) = some (0x3B, 1) := by decide

/-- K-SKP-4, K-SKP-3, K-SKNP-2, K-SKNP-3. -/
theorem test_skp : (run 0xE19E { regs [(1, 0xF)] with keys := 0x8000 }).map (·.pc) = some 0x204 ∧
    (run 0xE19E { regs [(1, 0x13)] with keys := 0xFFFF }).map (·.pc) = some 0x202 := by decide
theorem test_sknp : (run 0xE1A1 { regs [(1, 3)] with keys := 8 }).map (·.pc) = some 0x202 ∧
    (run 0xE1A1 { regs [(1, 0x13)] with keys := 0xFFFF }).map (·.pc) = some 0x204 := by decide

/-- K-WAIT-1, K-WAIT-3. -/
theorem test_ldVxK_blocked : (run 0xF10A { regs [(1, 7)] with dt := 3 }).map (fun t => (t.pc, t.getV 1, t.dt, t.ended)) =
    some (0x200, 7, 2, false) := by decide
theorem test_ldVxK : (run 0xF10A { State.reset with keys := 0x0809 }).map (fun t => (t.getV 1, t.pc)) = some (0xB, 0x202) := by decide

/-! ## The step, faults, transactions -/

/-- S-FETCH-1, S-FETCH-3. -/
theorem test_fetch_above : (nextOf (step { State.reset with pc := 0xFFF })).map (fun t => (t.pc, t.fault)) =
      some (0xFFF, { cause := some .memoryOutOfRange, addr := 0xFFF, info := 0x1000 }) ∧
    (nextOf (step { State.reset with pc := 0x10FE })).map (fun t => (t.pc, t.fault)) =
      some (0x10FE, { cause := some .memoryOutOfRange, addr := 0x10FE, info := 0x10FF }) := by decide

/-- S-FETCH-4: the last word of memory. -/
theorem test_fetch_last : (run 0x6A01 { State.reset with pc := 0xFFE }).map (fun t => (t.getV 0xA, t.pc, t.ended)) =
    some (1, 0x1000, false) := by decide

/-- T-DEC-3 and S-UNK-1: no decrement in a faulting step. -/
theorem test_unknown : (run 0x8128 { State.reset with dt := 5, st := 5, draw := true }).map
      (fun t => (t.dt, t.st, t.draw, t.pc, t.fault)) =
      some (5, 5, false, 0x202, { cause := some .unknownOpcode, addr := 0x200, info := 0x8128 }) ∧
    (nextOf (step State.reset)).map (·.fault) = some { cause := some .unknownOpcode, addr := 0x200, info := 0 } := by decide

/-- S-STICKY-1. -/
theorem test_sticky : step { State.reset with fault := { cause := some .unknownOpcode, addr := 0x200, info := 0x123 } } =
    .fault .unknownOpcode := by rfl

/-- S-DRAWCLR-1, S-END-1. -/
theorem test_draw_cleared : (run 0x6000 { State.reset with draw := true }).map (fun t => (t.draw, t.ended)) = some (false, true) := by
  decide

/-- E8: the timers clamp at zero. -/
theorem test_timers : (run 0x1200 { State.reset with dt := 3, st := 0 }).map (fun t => (t.dt, t.st, t.pc, t.ended)) =
    some (2, 0, 0x200, false) := by decide

/-- R125 with TIMER_PER_STEP false: the timers follow the tick. -/
theorem test_tick : ((nextOf (stepWith false ({ State.reset with dt := 3, tickIn := false }.withFetchWord 16 0x1200))).map (·.dt) =
      some 3) ∧
    ((nextOf (stepWith false ({ State.reset with dt := 3, tickIn := true }.withFetchWord 16 0x1200))).map (·.dt) = some 2) := by
  decide

/-- E7, S-LOAD-2. -/
theorem test_load : (State.reset.load [0x12, 0x34, 0x56]).1 = true ∧
    (State.reset.load [0x12, 0x34, 0x56]).2.mem.readBytes 0x1FF 5 = [0, 0x12, 0x34, 0x56, 0] ∧
    State.reset.load [] = (true, State.reset) := ⟨rfl, by decide, rfl⟩

/-- S-LOAD-1. -/
theorem test_load_too_long : State.reset.load (List.replicate 3585 1) = (false, State.reset) :=
  if_pos (by rw [List.length_replicate]; decide)

/-- R39: the cell port is row-major, and the debug port's selectors. -/
theorem test_ports : ({ State.reset with fb := State.reset.fb.flip 1 2 }).fbPort 66 = true ∧ State.reset.fbPort 66 = false ∧
    State.reset.debugPort 17 = some 0x200 ∧ (regs [(15, 9)]).debugPort 15 = some 9 ∧ State.reset.debugPort 21 = none := by decide

/-- Writing the reset contents back leaves memory as it was. -/
theorem test_memory_canonical : (Memory.write [] 0x300 7).write 0x300 0 = [] ∧ Memory.write [] 0 0xF0 = [] ∧
    (Memory.write [] 0 0).read 0 = 0 ∧ ((Memory.write [] 0x301 7).write 0x300 8) = [(0x300, 8), (0x301, 7)] := by decide

/-! ## Witnesses: the hypotheses of each statement hold together somewhere -/

/-- RetPopsTheReturnAddress: both clauses, at both ends. -/
theorem witness_ret : State.reset.sp = 0 ∧ ({ State.reset with sp := 1 }).sp.toNat = (0 : Fin 16).val + 1 ∧
    ({ State.reset with sp := 16 }).sp.toNat = (15 : Fin 16).val + 1 := by decide

/-- CallPushesThePc, RetUndoesCall. -/
theorem witness_call : ({ State.reset with sp := 16 }).sp = 16 ∧ State.reset.sp.toNat = (0 : Fin 16).val ∧
    ({ State.reset with sp := 15 }).sp.toNat = (15 : Fin 16).val := by decide
theorem witness_call_next : ∃ t, ({ State.reset with sp := 15 }).sp.toNat = (15 : Fin 16).val ∧
    exec (.call 0x300) { State.reset with sp := 15 } = .next t := ⟨_, by decide, rfl⟩

/-- AddSetsCarryThenResult, SubSets…, SubnSets…, ShiftsByOneInPlace: the flag clause. -/
theorem witness_not_VF : (0 : Reg) ≠ 15 ∧ (14 : Reg) ≠ 15 := by decide

/-- RndMasksTheFreeByte: the last clause. -/
theorem witness_rnd : ∃ t, exec (.rnd 3 0) State.reset = .next t := ⟨_, rfl⟩

/-- BcdStoresThreeDigits. -/
theorem witness_bcd : ({ State.reset with i := 0xFFD }).i.toNat + 2 ≤ 0xFFF ∧ 0xFFF < ({ State.reset with i := 0xFFE }).i.toNat + 2 ∧
    0xFFF < ({ State.reset with i := 0xFFFF }).i.toNat + 2 := by decide

/-- BlockStoreFromI, BlockLoadFromI, BlockLoadRestoresBlockStore. -/
theorem witness_block : ({ State.reset with i := 0xFF0 }).i.toNat + (15 : Reg).val ≤ 0xFFF ∧
    ({ State.reset with i := 0xFFF }).i.toNat + (0 : Reg).val ≤ 0xFFF ∧
    0xFFF < ({ State.reset with i := 0xFF1 }).i.toNat + (15 : Reg).val ∧
    0xFFF < ({ State.reset with i := 0x1000 }).i.toNat + (0 : Reg).val := by decide
theorem witness_block_next : ∃ t, ({ State.reset with i := 0xFF0 }).i.toNat + (15 : Reg).val ≤ 0xFFF ∧
    exec (.ldMemVx 15) { State.reset with i := 0xFF0 } = .next t := ⟨_, by decide, rfl⟩

/-- DrwFlipsCoveredCells: no row, the last row that fits, the first that does not. -/
theorem witness_drw : ((0 : Nibble) = 0 ∨ ({ State.reset with i := 0xFFFF }).i.toNat + (0 : Nibble).toNat - 1 ≤ 0xFFF) ∧
    ({ State.reset with i := 0xFF1 }).i.toNat + (15 : Nibble).toNat - 1 ≤ 0xFFF ∧
    ((15 : Nibble) ≠ 0 ∧ 0xFFF < ({ State.reset with i := 0xFF2 }).i.toNat + (15 : Nibble).toNat - 1) := by decide

/-- DrwFlipsCoveredCells: a set cell under the sprite (glyph 0 at the top left), and none. -/
theorem witness_drw_collision : SpriteCovers { State.reset with fb := State.reset.fb.flip 0 0 } 0 0 5 0 0 ∧
    ({ State.reset with fb := State.reset.fb.flip 0 0 }).fb.get 0 0 = true ∧
    ¬ ∃ row col, SpriteCovers State.reset 0 0 5 row col ∧ State.reset.fb.get row col = true :=
  ⟨⟨0, 0, by decide, by decide, rfl, rfl, by decide⟩, by decide,
    fun ⟨row, col, _, h⟩ =>
      absurd h (by rw [reset_dark]; exact Bool.noConfusion)⟩

/-- DrawingTwiceErases: the digit 0 on a clear framebuffer. -/
theorem witness_drw_twice : ∃ t, State.reset.i.toNat + (5 : Nibble).toNat - 1 ≤ 0xFFF ∧
    exec (.drw 1 2 5) State.reset = .next t ∧ t.getV 1 = State.reset.getV 1 ∧ t.getV 2 = State.reset.getV 2 ∧
    ∀ row col, State.reset.fb.get row col = false := ⟨_, by decide, rfl, by decide, by decide, reset_dark⟩

/-- A state that executes the word `w` (95_test_vectors.md's start state). -/
def at200 (w : Nat) : State := State.reset.withFetchWord 16 w

/-- TimerMovesAndTheirStep, KeyWaitTakesTheHighestKey, BlockedKeyWaitStandsStill, SelfJumpCountsTheTimersDown. -/
theorem witness_timers : Executes (at200 0xF307) (.ldVxDT 3) ∧ Executes (at200 0xF315) (.ldDTVx 3) ∧
    Executes (at200 0xF318) (.ldSTVx 3) := ⟨⟨rfl, by decide, rfl⟩, ⟨rfl, by decide, rfl⟩, rfl, by decide, rfl⟩
theorem witness_keys : (at200 0xF50A).keys = 0 ∧ Executes (at200 0xF50A) (.ldVxK 5) ∧ ({ State.reset with keys := 8 }).keys ≠ 0 :=
  ⟨rfl, ⟨rfl, by decide, rfl⟩, by decide⟩
theorem witness_self_jump : Executes (at200 0x1200) (.jp 0x200) ∧ (0x200 : Addr).toNat = (at200 0x1200).pc.toNat :=
  ⟨⟨rfl, by decide, rfl⟩, by decide⟩

/-- EncodeOfDecode, DecodeFollowsTheOpcodeTable (a row met at a word with every operand bit set). -/
theorem witness_decode : decodeWord 0x5FFF = .ok (.seReg 15 15 15) ∧
    ("SE_Vx__Vy", 0xF000, 0x5000) ∈ opcodeTable ∧ (0x5FFF : Word) &&& 0xF000 = 0x5000 := ⟨rfl, by decide, by decide⟩

/-- StepRunsTheDecodedInstruction, TimerEngineRunsAfterTheInstruction: with no fault, and with one. -/
theorem witness_step : ∃ t, Executes (at200 0x6A2F) (.ldByte 0xA 0x2F) ∧
    exec (.ldByte 0xA 0x2F) (entryState (at200 0x6A2F)) = .next t ∧ t.fault.cause = none :=
  ⟨_, ⟨rfl, by decide, rfl⟩, rfl, rfl⟩
theorem witness_step_fault : ∃ t u, Executes (at200 0x00EE) .ret ∧ exec .ret (entryState (at200 0x00EE)) = .next t ∧
    t.fault.cause ≠ none ∧ step (at200 0x00EE) = .next u ∧ u.fault.cause ≠ none :=
  ⟨_, _, ⟨rfl, by decide, rfl⟩, rfl, by decide, rfl, by decide⟩

/-- TimerEngineRunsAfterTheInstruction: TIMER_PER_STEP false, with and without a tick. -/
theorem witness_tick : ∃ t u, Executes { at200 0x1200 with tickIn := true } (.jp 0x200) ∧
    stepWith false { at200 0x1200 with tickIn := true } = .next t ∧ t.fault.cause = none ∧
    Executes { at200 0x1200 with tickIn := false } (.jp 0x200) ∧
    stepWith false { at200 0x1200 with tickIn := false } = .next u ∧ u.fault.cause = none :=
  ⟨_, _, ⟨rfl, by decide, rfl⟩, rfl, by decide, ⟨rfl, by decide, rfl⟩, rfl, by decide⟩

/-- UnfaultedStepAlwaysAnswers, FaultingStepLeavesOnlyTheRecord (fetch and decode), FaultCausesExactly. -/
theorem witness_fetch : ({ State.reset with pc := 0xFFF }).fault.cause = none ∧ 0xFFE < ({ State.reset with pc := 0xFFF }).pc.toNat ∧
    ({ State.reset with pc := 0xFFF }).fault = FaultRecord.clear := by decide
theorem witness_unknown : (at200 0x0123).fault.cause = none ∧ (at200 0x0123).pc.toNat ≤ 0xFFE ∧
    ∀ i, decodeWord (wordAt (at200 0x0123) (at200 0x0123).pc.toNat) ≠ .ok i :=
  ⟨rfl, by decide, fun i h => by cases (show Except.error (DecodeReject.unknown 0x0123) = Except.ok i from h)⟩

/-- FaultCausesExactly: an unfaulted state whose step answers, for each cause. -/
theorem witness_causes : (nextOf (step { State.reset with pc := 0xFFF })).map (·.fault.cause) = some (some .memoryOutOfRange) ∧
    (nextOf (step (at200 0x0000))).map (·.fault.cause) = some (some .unknownOpcode) ∧
    (nextOf (step (at200 0x00EE))).map (·.fault.cause) = some (some .stackUnderflow) ∧
    (nextOf (step ({ State.reset with sp := 16 }.withFetchWord 16 0x2200))).map (·.fault.cause) = some (some .stackOverflow) ∧
    (nextOf (step (at200 0x1200))).map (·.fault.cause) = some none := by decide

/-- The cause and the info that the step of the word `w`, with I = `i`, leaves recorded. -/
def causeAndInfo (i : Word) (w : Nat) : Option (Option Fault × Word) :=
  (nextOf (step ({ State.reset with i := i }.withFetchWord 16 w))).map fun t => (t.fault.cause, t.fault.info)

/-- FaultCausesExactly: a state for each of the five accesses, its highest address just above the end. -/
theorem witness_accesses :
    AccessReaches { State.reset with pc := 0xFFF } 0x1000 ∧
    AccessReaches ({ State.reset with i := 0xFFF }.withFetchWord 16 0xD122) 0x1000 ∧
    AccessReaches ({ State.reset with i := 0xFFE }.withFetchWord 16 0xF133) 0x1000 ∧
    AccessReaches ({ State.reset with i := 0xFF1 }.withFetchWord 16 0xFF55) 0x1000 ∧
    AccessReaches ({ State.reset with i := 0xFF1 }.withFetchWord 16 0xFF65) 0x1000 :=
  ⟨.inl ⟨rfl, by decide⟩, .inr (.inl ⟨1, 2, 2, ⟨rfl, by decide, rfl⟩, by decide, by decide⟩),
    .inr (.inr (.inl ⟨1, ⟨rfl, by decide, rfl⟩, by decide⟩)),
    .inr (.inr (.inr (.inl ⟨15, ⟨rfl, by decide, rfl⟩, by decide⟩))),
    .inr (.inr (.inr (.inr ⟨15, ⟨rfl, by decide, rfl⟩, by decide⟩)))⟩

/-- R241, R243: each access at the boundary, with its info; one address lower nothing is recorded. -/
theorem test_access_boundary :
    causeAndInfo 0xFFF 0xD122 = some (some .memoryOutOfRange, 0x1000) ∧ causeAndInfo 0xFFE 0xD122 = some (none, 0) ∧
    causeAndInfo 0xFFF 0xD120 = some (none, 0) ∧
    causeAndInfo 0xFFE 0xF133 = some (some .memoryOutOfRange, 0x1000) ∧ causeAndInfo 0xFFD 0xF133 = some (none, 0) ∧
    causeAndInfo 0xFF1 0xFF55 = some (some .memoryOutOfRange, 0x1000) ∧ causeAndInfo 0xFF0 0xFF55 = some (none, 0) ∧
    causeAndInfo 0xFFFF 0xFF65 = some (some .memoryOutOfRange, 0xFFFF) ∧ causeAndInfo 0xFF0 0xFF65 = some (none, 0) := by
  decide

theorem witness_causes_together : ∃ t, (at200 0x00EE).fault = FaultRecord.clear ∧ step (at200 0x00EE) = .next t ∧
    t.fault.cause = some .stackUnderflow := ⟨_, rfl, rfl, by decide⟩

/-- A core that has faulted. -/
def faulted : State := { State.reset with pc := 0x202, fault := { cause := some .unknownOpcode, addr := 0x200, info := 0x0123 } }

/-- FaultedCoreRefusesSteps, OnlyResetClearsAFault (a run that holds a SetKeys and a Load). -/
theorem witness_faulted : faulted.fault.cause = some .unknownOpcode ∧ faulted.fault.cause ≠ none ∧
    Transaction.reset ∉ [Transaction.step 0 false, .setKeys 8, .load [1], .observe] := by decide

/-- TimersOnlyCountDown, EndedReportLooksAtTheNextWord, DrawFlagSaysDrwRan, OnlySetKeysWritesTheLatch. -/
theorem witness_step_next : ∃ t, step (at200 0x1200) = .next t ∧ t.fault.cause = none ∧
    (∀ x, ¬ Executes (at200 0x1200) (.ldDTVx x)) ∧ ∀ x, ¬ Executes (at200 0x1200) (.ldSTVx x) :=
  ⟨_, rfl, by decide, fun x h => Instr.noConfusion (Except.ok.inj (show Except.ok (Instr.jp 0x200) = .ok (.ldDTVx x) from h.2.2)),
    fun x h => Instr.noConfusion (Except.ok.inj (show Except.ok (Instr.jp 0x200) = .ok (.ldSTVx x) from h.2.2))⟩

/-- StoredWordIsFetchedNext. -/
theorem witness_stored : Executes ({ State.reset with i := 0x202 }.withFetchWord 16 0xF155) (.ldMemVx 1) ∧ 1 ≤ (1 : Reg).val ∧
    ({ State.reset with i := 0x202 }.withFetchWord 16 0xF155).i = ({ State.reset with i := 0x202 }.withFetchWord 16 0xF155).pc + 2 ∧
    ({ State.reset with i := 0x202 }.withFetchWord 16 0xF155).i.toNat + (1 : Reg).val ≤ 0xFFF :=
  ⟨⟨rfl, by decide, rfl⟩, by decide, by decide, by decide⟩

/-- StateChangesOnlyByItsWriters, NothingReadsStDrawEnded: each part does change somewhere. -/
theorem witness_writers :
    (∃ t, exec (.ldI 5) State.reset = .next t ∧ t.i ≠ State.reset.i) ∧
    (∃ t, exec (.call 0x300) State.reset = .next t ∧ t.sp ≠ State.reset.sp ∧ t.stack ≠ State.reset.stack) ∧
    (∃ t, exec (.ldDTVx 1) (regs [(1, 5)]) = .next t ∧ t.dt ≠ (regs [(1, 5)]).dt) ∧
    (∃ t, exec (.ldSTVx 1) (regs [(1, 5)]) = .next t ∧ t.st ≠ (regs [(1, 5)]).st) ∧
    (∃ t, exec (.ldMemVx 0) State.reset = .next t ∧ t.mem ≠ State.reset.mem) ∧
    (∃ t, exec (.drw 0 0 5) State.reset = .next t ∧ t.draw ≠ State.reset.draw ∧ t.fb.get 0 0 ≠ State.reset.fb.get 0 0) ∧
    (∃ t, exec (.skp 0) { State.reset with keys := 1 } = .next t ∧ t.pc ≠ State.reset.pc) ∧
    (∃ t, exec (.ldVxMem 15) State.reset = .next t ∧ t.getV 15 ≠ State.reset.getV 15) ∧
    (∃ t, exec .ret State.reset = .next t ∧ t.fault ≠ State.reset.fault) :=
  ⟨⟨_, rfl, by decide⟩, ⟨_, rfl, by decide, by decide⟩, ⟨_, rfl, by decide⟩, ⟨_, rfl, by decide⟩, ⟨_, rfl, by decide⟩,
    ⟨_, rfl, by decide, by decide⟩, ⟨_, rfl, by decide⟩, ⟨_, rfl, by decide⟩, _, rfl, by decide⟩

/-- OnlySixWriteVFAsAFlag. -/
theorem witness_VF : ∃ t, exec (.shr 1 0) (regs [(1, 1)]) = .next t ∧ t.getV 15 ≠ (regs [(1, 1)]).getV 15 := ⟨_, rfl, by decide⟩

/-- OnlyRndReadsTheRandomByte. -/
theorem witness_not_rnd : ∀ x kk, ¬ Executes (at200 0x1200) (.rnd x kk) :=
  fun x kk h => Instr.noConfusion (Except.ok.inj (show Except.ok (Instr.jp 0x200) = .ok (.rnd x kk) from h.2.2))

/-- StepKeepsTheInvariant: a state that is not the reset state, with a return address held. -/
theorem witness_invariant : ∃ t, ({ State.reset with sp := 1, stack := State.reset.stack.set 0 0x202, pc := 0x300 }).Inv ∧
    step { State.reset with sp := 1, stack := State.reset.stack.set 0 0x202, pc := 0x300 } = .next t :=
  ⟨_, ⟨rfl, by decide, by decide, by decide, fun h => absurd rfl h, ⟨rfl, rfl⟩⟩, rfl⟩

/-- TransactionKeepsTheInvariant: a step with TIMER_PER_STEP false, from a state with a return address held. -/
theorem witness_transaction_invariant : ∃ t r,
    ({ State.reset with sp := 1, stack := State.reset.stack.set 0 0x202, pc := 0x300 }).Inv ∧
    transact false { State.reset with sp := 1, stack := State.reset.stack.set 0 0x202, pc := 0x300 } (.step 7 true) = some (t, r) :=
  ⟨_, _, ⟨rfl, by decide, by decide, by decide, fun h => absurd rfl h, ⟨rfl, rfl⟩⟩, rfl⟩

/-- ThirteenComponentsAreTheWholeState: two states of the model that differ in their inputs alone. -/
theorem witness_same_state : (State.reset.withInput 3 true).toArch = (State.reset.withInput 4 false).toArch ∧
    State.reset.withInput 3 true ≠ State.reset.withInput 4 false :=
  ⟨rfl, fun h => absurd (congrArg (fun s : State => s.rndIn) h) (by decide)⟩

/-- StepTransactionReportsTheStep: a running core whose step reports Ok, one whose step reports a fault, one that
executes a RND. -/
theorem witness_step_transaction : (at200 0x1200).fault.cause = none ∧
    (∃ t, stepWith true ((at200 0x1200).withInput 9 false) = .next t ∧ t.fault.cause = none) ∧
    (∃ t, stepWith true ((at200 0x00EE).withInput 9 false) = .next t ∧ t.fault.cause = some .stackUnderflow) ∧
    Executes (at200 0xC30F) (.rnd 3 0x0F) :=
  ⟨rfl, ⟨_, rfl, by decide⟩, ⟨_, rfl, by decide⟩, rfl, by decide, rfl⟩

/-- R172's example through the transaction: the byte is the transaction's own. -/
theorem test_step_transaction : (transact true ((at200 0xC30F).withInput 0 true) (.step 0xB7 false)).map
    (fun p => (p.1.getV 3, p.2)) = some (0x07, .stepOk true) := by decide

/-- OnlySetKeysWritesTheLatch: a transaction that does change the latch. -/
theorem witness_latch : ∃ t r, transact true State.reset (.setKeys 8) = some (t, r) ∧ t.keys ≠ State.reset.keys :=
  ⟨_, _, rfl, by decide⟩

/-- ReachableStatesMeetTheInvariant. -/
theorem witness_reachable : Reachable true (State.reset.setKeys 8) := ⟨[.setKeys 8], rfl⟩

/-- ResetStateIsTheSpecs: the clause above the font. -/
theorem witness_above_font : 0x50 ≤ 0x50 ∧ State.reset.mem.read 0x4F = 0x80 := by decide

/-- MemoryPrimitives: both sides of the range check, for no byte and for some. -/
theorem witness_primitives : (3 ≠ 0 ∧ 0xFFF < 0xFFE + 3 - 1) ∧ 0xFFD + 3 - 1 ≤ 0xFFF ∧ ([1, 2, 3] : List Byte) ≠ [] ∧
    0xFFF < 0xFFE + ([1, 2, 3] : List Byte).length - 1 ∧ 0xFFD + ([1, 2, 3] : List Byte).length - 1 ≤ 0xFFF := by decide

/-- CanonicalMemoryIsDetermined: two ways to one memory. -/
theorem witness_canonical : ((Memory.write [] 0x300 7).write 0x301 8).wf = true ∧ ((Memory.write [] 0x301 8).write 0x300 7).wf = true ∧
    ∀ a, ((Memory.write [] 0x300 7).write 0x301 8).read a = ((Memory.write [] 0x301 8).write 0x300 7).read a :=
  ⟨by decide, by decide, fun _ => rfl⟩

/-- LoadPlacesTheImage: the longest image and one byte more; BootFetchesTheImage. -/
theorem witness_image : (List.replicate 3584 (1 : Byte)).length ≤ 3584 ∧ 3584 < (List.replicate 3585 (1 : Byte)).length ∧
    ((0x12 : Byte) :: 0x00 :: List.replicate 3582 1).length ≤ 3584 := by
  simp only [List.length_cons, List.length_replicate]; decide

/-- PlacedWordIsFetched: the last clause at the last fetch address. -/
theorem witness_placed : ({ State.reset with pc := 0xFFE }).fault.cause = none ∧ ({ State.reset with pc := 0xFFE }).pc.toNat ≤ 0xFFE := by
  decide

end Sys2Proof.Tests
end

section
/-! SUPPORT. What one instruction can do to the state, said once as a shape of update (spec/41_flow.md to 45_timers_keys.md), with the instructions each shape belongs to. -/

namespace Sys2Proof.Machine

/-! ## The instructions of each shape -/

/-- The destination of the instructions that write one register and no flag (R161 to R166, R172, R220, R225). -/
def WritesReg (i : Instr) (x : Reg) : Prop :=
  (∃ kk, i = .ldByte x kk ∨ i = .addByte x kk ∨ i = .rnd x kk) ∨
  (∃ y, i = .ldReg x y ∨ i = .orReg x y ∨ i = .andReg x y ∨ i = .xorReg x y) ∨ i = .ldVxDT x ∨ i = .ldVxK x

/-- The destination of the five register instructions that flag in VF (R167 to R171). -/
def WritesRegAndFlag (i : Instr) (x : Reg) : Prop :=
  ∃ y, i = .addReg x y ∨ i = .subReg x y ∨ i = .shr x y ∨ i = .subnReg x y ∨ i = .shl x y

/-- The six skips (R143 to R146, R223, R224). -/
def IsSkip (i : Instr) : Prop :=
  (∃ x kk, i = .seByte x kk ∨ i = .sneByte x kk) ∨ (∃ x y n, i = .seReg x y n ∨ i = .sneReg x y n) ∨
  ∃ x, i = .skp x ∨ i = .sknp x

/-- The instructions that write I (R190 to R192). -/
def WritesIndex (i : Instr) : Prop := (∃ nnn, i = .ldI nnn) ∨ (∃ x, i = .addI x) ∨ ∃ x, i = .ldF x

/-- The instructions that write MEM (R193, R194). -/
def Stores (i : Instr) : Prop := (∃ x, i = .ldB x) ∨ ∃ x, i = .ldMemVx x

/-- The instructions that can fault (R241). -/
def CanFault (i : Instr) : Prop :=
  i = .ret ∨ (∃ nnn, i = .call nnn) ∨ (∃ x y n, i = .drw x y n) ∨
    ∃ x, i = .ldB x ∨ i = .ldMemVx x ∨ i = .ldVxMem x

/-- What instruction `i` can leave of state `s`. -/
inductive ExecEffect (s : State) : Instr → State → Prop
  /-- R161 to R166, R172, R220, R225 -/
  | reg {i x} (b : Byte) (hi : WritesReg i x) : ExecEffect s i (s.setV x b)
  /-- R167 to R171 -/
  | regAndFlag {i x} (flag : Bool) (b : Byte) (hi : WritesRegAndFlag i x) : ExecEffect s i (s.setFlagThen flag x b)
  /-- R195: the registers above Vx stay -/
  | block {x} (v : Vector Byte 16) (hv : ∀ r : Reg, x < r → v[r] = s.v[r]) :
      ExecEffect s (.ldVxMem x) { s with v := v }
  /-- R141, R147: a 12-bit address, or one with V0 added -/
  | jump {i w} (hi : ∃ nnn, i = .jp nnn ∨ i = .jpV0 nnn) (hw : w.toNat ≤ 0x10FE) : ExecEffect s i (s.setPc w)
  /-- R143 to R146, R223, R224 -/
  | skip {i} (c : Bool) (hi : IsSkip i) : ExecEffect s i (s.setPc (if c then s.pc + 2 else s.pc))
  /-- R225, no key held -/
  | wait (x : Reg) : ExecEffect s (.ldVxK x) (s.setPc (s.pc - 2))
  /-- R140 -/
  | ret (hs : s.sp ≠ 0) : ExecEffect s .ret s.popPc
  /-- R142 -/
  | call (nnn : Addr) (hs : s.sp ≠ 16) : ExecEffect s (.call nnn) ((s.push s.pc).setPc (zext16 nnn))
  /-- R190 to R192 -/
  | index {i} (w : Word) (hi : WritesIndex i) : ExecEffect s i (s.setI w)
  /-- R193, R194 -/
  | store {i} (m : Memory) (hi : Stores i) : ExecEffect s i (s.setMem m)
  /-- R210 -/
  | clear : ExecEffect s .cls (s.setFb Framebuffer.clear)
  /-- R211 -/
  | draw (x y : Reg) (n : Nibble) (sprite : List Byte) :
      ExecEffect s (.drw x y n) (s.drawAt (s.getV x) (s.getV y) sprite)
  /-- R221 -/
  | delay (x : Reg) : ExecEffect s (.ldDTVx x) (s.setDt (s.getV x))
  /-- R222 -/
  | sound (x : Reg) : ExecEffect s (.ldSTVx x) (s.setSt (s.getV x))
  /-- R241, R249 -/
  | fault {i} (f : Fault) (info : Word) (hi : CanFault i) : ExecEffect s i (s.raise f info)

/-! ## The shared operations as shapes -/

/-- A store of an instruction writes memory or raises (R66). -/
theorem ExecEffect.of_storeOrFault {s : State} {i : Instr} (a : Nat) (bs : List Byte) (hi : Stores i)
    (hf : CanFault i) : ExecEffect s i (s.storeOrFault a bs) := by
  unfold State.storeOrFault State.memWrite
  cases accessFault a bs.length with
  | none => exact .store _ hi
  | some info => exact .fault _ _ hf

/-- A load of an instruction uses as many bytes as it asked for, or raises (R66). -/
theorem ExecEffect.of_loadOrFault {s : State} {i : Instr} {use : List Byte → State} (a n : Nat) (hf : CanFault i)
    (hu : ∀ bs : List Byte, bs.length = n → ExecEffect s i (use bs)) : ExecEffect s i (s.loadOrFault a n use) := by
  unfold State.loadOrFault State.memRead
  cases accessFault a n with
  | none => exact hu _ (Memory.length_readBytes _ _ _)
  | some info => exact .fault _ _ hf

theorem ExecEffect.of_skipIf {s : State} {i : Instr} (c : Bool) (hi : IsSkip i) : ExecEffect s i (s.skipIf c) :=
  s.skipIf_eq c ▸ .skip c hi

theorem ExecEffect.of_setBlock {s : State} {x : Reg} {bs : List Byte} (h : bs.length = x.val + 1) :
    ExecEffect s (.ldVxMem x) (s.setBlock 0 bs) := by
  rw [State.setBlock_eq]
  refine .block _ fun r hr => ?_
  have hx := x.isLt
  have hr : x.val < r.val := hr
  have hget := State.getV_setBlock bs s 0 r (by omega)
  rwa [dif_neg (by omega)] at hget

/-- The target of a plain jump is a 12-bit address (R141). -/
theorem toNat_zext16_addr (nnn : Addr) : (zext16 nnn).toNat = nnn.toNat := by
  have := nnn.isLt
  rw [zext16, BitVec.toNat_setWidth, Nat.mod_eq_of_lt (by omega)]

/-- The target of `JP V0, addr` is at most 0xFFF + 0xFF (R147). -/
theorem State.offsetTarget_le (s : State) (nnn : Addr) : (s.offsetTarget nnn).toNat ≤ 0x10FE := by
  have := nnn.isLt
  have := (s.getV 0).isLt
  simp only [State.offsetTarget, zext16, BitVec.toNat_add, BitVec.toNat_setWidth]
  omega

/-! ## The inversion of `exec` -/

/-- Every instruction has one of the shapes. -/
theorem exec_effect {i : Instr} {s t : State} (h : exec i s = .next t) : ExecEffect s i t := by
  cases i with
  | cls => cases h; exact .clear
  | ret =>
    simp only [exec, execRet] at h
    split at h <;> cases h
    · exact .fault _ _ (.inl rfl)
    · next hs => exact .ret hs
  | jp nnn =>
    cases h
    have := nnn.isLt
    exact .jump ⟨nnn, .inl rfl⟩ (by rw [toNat_zext16_addr]; omega)
  | call nnn =>
    simp only [exec, execCall] at h
    split at h <;> cases h
    · exact .fault _ _ (.inr (.inl ⟨nnn, rfl⟩))
    · next hs => exact .call nnn hs
  | jpV0 nnn => cases h; exact .jump ⟨nnn, .inr rfl⟩ (s.offsetTarget_le nnn)
  | seByte | sneByte | seReg | sneReg | skp | sknp => cases h; exact .of_skipIf _ (by simp [IsSkip])
  | ldByte | addByte | ldReg | orReg | andReg | xorReg | rnd | ldVxDT => cases h; exact .reg _ (by simp [WritesReg])
  | addReg | subReg | shr | subnReg | shl => cases h; exact .regAndFlag _ _ (by simp [WritesRegAndFlag])
  | ldI | addI | ldF => cases h; exact .index _ (by simp [WritesIndex])
  | ldVxK x =>
    simp only [exec, execLdVxK] at h
    split at h <;> cases h
    · exact .wait x
    · exact .reg _ (by simp [WritesReg])
  | ldDTVx x => cases h; exact .delay x
  | ldSTVx x => cases h; exact .sound x
  | ldB | ldMemVx => cases h; exact .of_storeOrFault _ _ (by simp [Stores]) (by simp [CanFault])
  | drw x y n => cases h; exact .of_loadOrFault _ _ (by simp [CanFault]) fun bs _ => .draw x y n bs
  | ldVxMem x => cases h; exact .of_loadOrFault _ _ (by simp [CanFault]) fun bs hl => .of_setBlock hl

end Sys2Proof.Machine
end

section
/-! SUPPORT. The invariant of spec/10_state.md R40 is kept: by an instruction, by a step, by a transaction, by a run. -/

namespace Sys2Proof.Machine

/-! ## What the invariant looks at -/

/-- The invariant reads MEM, SP, pc, STACK, DRAW and FAULT alone. -/
theorem State.Inv.congr {s t : State} (h : s.Inv) (hm : t.mem = s.mem) (hsp : t.sp = s.sp) (hpc : t.pc = s.pc)
    (hst : t.stack = s.stack) (hd : t.draw = s.draw) (hf : t.fault = s.fault) : t.Inv where
  mem_wf := hm ▸ h.mem_wf
  sp_le := hsp ▸ h.sp_le
  pc_le := hpc ▸ h.pc_le
  returns := by rw [hsp, hst]; exact h.returns
  draw_off := by rw [Safe, hf, hd]; exact h.draw_off
  fault_ok := by have := h.fault_ok; unfold FaultConsistent at this ⊢; rwa [hf, hpc, hsp]

theorem State.Inv.finishStep {s : State} (perStep : Bool) (h : s.Inv) : (finishStep perStep s).Inv := by
  rw [finishStep_eq]; exact h.congr rfl rfl rfl rfl rfl rfl

theorem State.Inv.nextInput {s : State} (h : s.Inv) : s.nextInput.Inv := h.congr rfl rfl rfl rfl rfl rfl

theorem State.Inv.withInput {s : State} (rnd : Byte) (tick : Bool) (h : s.Inv) : (s.withInput rnd tick).Inv :=
  h.congr rfl rfl rfl rfl rfl rfl

theorem State.Inv.setKeys {s : State} (mask : BitVec 16) (h : s.Inv) : (s.setKeys mask).Inv :=
  h.congr rfl rfl rfl rfl rfl rfl

theorem State.Inv.load {s : State} (image : List Byte) (h : s.Inv) : (s.load image).2.Inv := by
  unfold State.load
  split
  · exact h
  · next hl =>
    have hl : image.length ≤ 3584 := Nat.le_of_not_lt hl
    exact { h with mem_wf := Memory.wf_writeBytes 0x200 h.mem_wf (by omega) }

/-- A running core has an empty fault record, not only an empty cause. -/
theorem State.Inv.fault_clear {s : State} (h : s.Inv) (h0 : Safe s) : s.fault = FaultRecord.clear := by
  have hf := h.fault_ok
  have h0 : s.fault.cause = none := h0
  simp only [FaultConsistent, h0] at hf
  obtain ⟨ha, hi⟩ := hf
  calc s.fault = ⟨s.fault.cause, s.fault.addr, s.fault.info⟩ := rfl
    _ = FaultRecord.clear := by rw [h0, ha, hi]; rfl

theorem State.reset_inv : State.reset.Inv where
  mem_wf := State.reset_mem_wf
  sp_le := by decide
  pc_le := by decide
  returns := fun _ hk => absurd hk (Nat.not_lt_zero _)
  draw_off := fun _ => rfl
  fault_ok := ⟨rfl, rfl⟩

/-! ## The state an instruction is executed on -/

/-- What phases P1 to P3 leave for an instruction, on a state that meets the invariant (R121 to R123): no fault, DRAW
cleared, pc two past a fetch address. -/
structure EntryInv (s : State) : Prop where
  inv : s.Inv
  safe : Safe s
  draw : s.draw = false
  pc_ge : 2 ≤ s.pc.toNat
  pc_le : s.pc.toNat ≤ 0x1000

theorem entryState_pc {s : State} (hp : s.pc.toNat ≤ 0xFFE) : (entryState s).pc.toNat = s.pc.toNat + 2 := by
  have : (2 : Word).toNat = 2 := rfl
  simp only [entryState, BitVec.toNat_add]
  omega

theorem State.Inv.entry {s : State} (h : s.Inv) (h0 : Safe s) (hp : s.pc.toNat ≤ 0xFFE) : EntryInv (entryState s) := by
  have hpc := entryState_pc hp
  have hf : FaultConsistent (entryState s) := by
    have := h.fault_ok
    have h0 : s.fault.cause = none := h0
    simp only [FaultConsistent, entryState, h0] at this ⊢
    exact this
  exact ⟨⟨h.mem_wf, h.sp_le, by omega, h.returns, fun _ => rfl, hf⟩, h0, rfl, by omega, by omega⟩

/-! ## One instruction, part by part -/

section
variable {i : Instr} {s t : State}

/-- R26: `CALL` pushes only below 16, and `RET` pops only above 0. -/
theorem ExecEffect.sp_le (h : ExecEffect s i t) (hs : s.sp.toNat ≤ 16) : t.sp.toNat ≤ 16 := by
  cases h with
  | ret hne =>
    have : s.sp.toNat ≠ 0 := fun e => hne (BitVec.eq_of_toNat_eq e)
    simp only [State.popPc_sp, BitVec.toNat_sub, BitVec.reduceToNat]
    omega
  | call nnn hne =>
    have : s.sp.toNat ≠ 16 := fun e => hne (BitVec.eq_of_toNat_eq e)
    simp only [State.setPc_sp, State.push_sp, BitVec.toNat_add, BitVec.reduceToNat]
    omega
  | _ => exact hs

/-- R40.6: the entry that `CALL` pushes is the pc, the others were held before. -/
theorem ExecEffect.returns (h : ExecEffect s i t) (hs : EntryInv s) (k : Fin 16) (hk : k.val < t.sp.toNat) :
    2 ≤ (t.stack[k]).toNat ∧ (t.stack[k]).toNat ≤ 0x1000 := by
  cases h with
  | ret hne =>
    have : s.sp.toNat ≠ 0 := fun e => hne (BitVec.eq_of_toNat_eq e)
    have := hs.inv.sp_le
    simp only [State.popPc_sp, BitVec.toNat_sub, BitVec.reduceToNat] at hk
    exact hs.inv.returns k (by omega)
  | call nnn hne =>
    have : s.sp.toNat ≠ 16 := fun e => hne (BitVec.eq_of_toNat_eq e)
    have := hs.inv.sp_le
    obtain ⟨hstack, hsp⟩ := s.push_at s.pc ⟨s.sp.toNat, by omega⟩ rfl
    simp only [State.setPc_sp, State.setPc_stack, hstack, hsp, Fin.getElem_fin, Vector.getElem_set] at hk ⊢
    split
    · exact ⟨hs.pc_ge, hs.pc_le⟩
    · exact hs.inv.returns k (by omega)
  | _ => exact hs.inv.returns k hk

/-- R40.5: a jump's target, a skip past the advanced pc, the pc of a key wait, or a return address. -/
theorem ExecEffect.pc_le (h : ExecEffect s i t) (hs : EntryInv s) : t.pc.toNat ≤ 0x10FE := by
  have hge := hs.pc_ge
  have hle := hs.pc_le
  cases h with
  | jump _ hw => exact hw
  | skip c _ =>
    rw [State.setPc_pc]
    split
    · simp only [BitVec.toNat_add, BitVec.reduceToNat]; omega
    · omega
  | wait x => simp only [State.setPc_pc, BitVec.toNat_sub, BitVec.reduceToNat]; omega
  | call nnn _ =>
    have := nnn.isLt
    rw [State.setPc_pc, toNat_zext16_addr]; omega
  | ret hne =>
    have : s.sp.toNat ≠ 0 := fun e => hne (BitVec.eq_of_toNat_eq e)
    have := hs.inv.sp_le
    obtain ⟨hpc, -⟩ := s.popPc_at ⟨s.sp.toNat - 1, by omega⟩ (by show _ = s.sp.toNat - 1 + 1; omega)
    have := hs.inv.returns ⟨s.sp.toNat - 1, by omega⟩ (by show s.sp.toNat - 1 < _; omega)
    rw [hpc]; omega
  | _ => exact hs.inv.pc_le

end

/-- R128, R241: a record that an instruction writes is the one its cause asks for. -/
theorem exec_fault_ok {i : Instr} {s t : State} (h : exec i s = .next t) (hs : EntryInv s) : FaultConsistent t := by
  have hclear := hs.inv.fault_clear hs.safe
  have hA (w : Word) : w = w - 2 + 2 := (BitVec.sub_add_cancel w 2).symm
  rcases exec_raise_cases h with e | ⟨-, hsp, rfl⟩ | ⟨-, hsp, rfl⟩ | ⟨last, hl, rfl, -⟩
  · simp only [FaultConsistent, e, hclear, FaultRecord.clear, and_self]
  · exact ⟨hA _, hsp, rfl⟩
  · exact ⟨hA _, hsp, rfl⟩
  · refine ⟨.inr (hA _), ?_⟩
    simp only [State.raise_fault, BitVec.toNat_ofNat]
    omega

/-- R213: an instruction that raises draws nothing. -/
theorem exec_draw_off {i : Instr} {s t : State} (h : exec i s = .next t) (hs : EntryInv s) (hf : ¬ Safe t) :
    t.draw = false := by
  obtain ⟨f, info, rfl⟩ := exec_raises hs.safe h hf
  exact hs.draw

theorem exec_keeps_inv {i : Instr} {s t : State} (h : exec i s = .next t) (hs : EntryInv s) : t.Inv where
  mem_wf := exec_mem_wf h hs.inv.mem_wf
  sp_le := (exec_effect h).sp_le hs.inv.sp_le
  pc_le := (exec_effect h).pc_le hs
  returns := (exec_effect h).returns hs
  draw_off := exec_draw_off h hs
  fault_ok := exec_fault_ok h hs

/-! ## A step -/

/-- R122: a fetch above the last fetch address leaves pc where it was. -/
theorem State.Inv.fetchFault {s : State} (h : s.Inv) (hp : 0xFFE < s.pc.toNat) :
    (s.beginStep.raiseAt s.pc .memoryOutOfRange (BitVec.ofNat 16 (min (s.pc.toNat + 1) 0xFFFF))).Inv :=
  { h with
    draw_off := fun _ => rfl
    fault_ok := ⟨.inl rfl, by simp only [State.raiseAt_fault, BitVec.toNat_ofNat]; omega⟩ }

/-- R101, R128: an illegal word leaves pc past it. -/
theorem EntryInv.unknownOpcode {s : State} {w : Word} (h : EntryInv s) (hw : decodeWord w = .error (.unknown w)) :
    (s.raise .unknownOpcode w).Inv :=
  { h.inv with
    draw_off := fun _ => h.draw
    fault_ok := ⟨(BitVec.sub_add_cancel s.pc 2).symm, hw⟩ }

theorem stepWith_keeps_inv {perStep : Bool} {s t : State} (hs : s.Inv) (h : stepWith perStep s = .next t) : t.Inv := by
  obtain ⟨h0, ⟨hp, rfl⟩ | ⟨hp, hd, rfl⟩ | ⟨i, u, hi, hu, rfl⟩⟩ := stepWith_inv h
  · exact (hs.fetchFault hp).nextInput
  · exact ((hs.entry h0 hp).unknownOpcode hd).nextInput
  · obtain ⟨-, hp, -⟩ := hi
    exact ((exec_keeps_inv hu (hs.entry h0 hp)).finishStep perStep).nextInput

/-! ## A transaction, a run -/

theorem transact_keeps_inv {perStep : Bool} {s t : State} {tr : Transaction} {r : Report} (hs : s.Inv)
    (h : transact perStep s tr = some (t, r)) : t.Inv := by
  cases tr with
  | reset => cases h; exact State.reset_inv
  | load image => cases h; exact hs.load image
  | setKeys mask => cases h; exact hs.setKeys mask
  | observe => cases h; exact hs
  | step rnd tick =>
    simp only [transact] at h
    split at h
    · next hn => cases h; exact stepWith_keeps_inv (hs.withInput rnd tick) hn
    · cases h; exact hs
    · cases h

theorem transactAll_keeps_inv {perStep : Bool} {ts : List Transaction} : ∀ {s t : State}, s.Inv →
    transactAll perStep s ts = some t → t.Inv := by
  induction ts with
  | nil => intro s t hs h; cases h; exact hs
  | cons tr ts ih =>
    intro s t hs h
    simp only [transactAll] at h
    split at h
    · next htr => exact ih (transact_keeps_inv hs htr) h
    · cases h

/-! ## The statements -/

/-- Settles O48: the step invariant, at the default of TIMER_PER_STEP. -/
theorem stepKeepsTheInvariant : Obligations.StepKeepsTheInvariant := fun _ _ hs h => stepWith_keeps_inv hs h

/-- Settles O59: the step invariant beside the four transactions that execute nothing. -/
theorem transactionKeepsTheInvariant : Obligations.TransactionKeepsTheInvariant :=
  fun _ _ _ _ _ hs h => transact_keeps_inv hs h

/-- Settles O47. -/
theorem resetMeetsTheInvariant : Obligations.ResetMeetsTheInvariant := State.reset_inv

/-- Settles O49: it holds at reset and every transaction of the run keeps it. -/
theorem reachableStatesMeetTheInvariant : Obligations.ReachableStatesMeetTheInvariant :=
  fun _ _ ⟨_, h⟩ => transactAll_keeps_inv State.reset_inv h

end Sys2Proof.Machine
end

section
/-! SUPPORT. Which instructions write which piece of state (spec/10_state.md R20, column 'written by'; R22, R24, R241), read off the shapes of `ExecEffect`. -/

namespace Sys2Proof.Machine

namespace ExecEffect
variable {i : Instr} {s t : State}

theorem i_writers (h : ExecEffect s i t) (hne : t.i ≠ s.i) : WritesIndex i := by
  cases h with
  | index _ hi => exact hi
  | _ => exact absurd rfl hne

theorem pc_writers (h : ExecEffect s i t) (hne : t.pc ≠ s.pc) :
    i = .ret ∨ (∃ nnn, i = .jp nnn ∨ i = .call nnn ∨ i = .jpV0 nnn) ∨ IsSkip i ∨ ∃ x, i = .ldVxK x := by
  cases h with
  | ret _ => exact .inl rfl
  | jump hi _ => exact .inr (.inl (hi.imp fun _ => Or.imp_right .inr))
  | call nnn _ => exact .inr (.inl ⟨nnn, .inr (.inl rfl)⟩)
  | skip _ hi => exact .inr (.inr (.inl hi))
  | wait x => exact .inr (.inr (.inr ⟨x, rfl⟩))
  | _ => exact absurd rfl hne

/-- A register is written as the destination, in the block of a load, or as VF by the six that flag (R22). -/
theorem v_writers (h : ExecEffect s i t) {r : Reg} (hne : t.getV r ≠ s.getV r) :
    WritesReg i r ∨ WritesRegAndFlag i r ∨ (∃ x, r ≤ x ∧ i = .ldVxMem x) ∨
      (r = 15 ∧ ((∃ x, WritesRegAndFlag i x) ∨ ∃ x y n, i = .drw x y n)) := by
  cases h with
  | @reg _ x b hi =>
    by_cases hr : r = x
    · exact .inl (hr ▸ hi)
    · exact absurd (s.getV_setV_ne b hr) hne
  | @regAndFlag _ x flag b hi =>
    by_cases hr : r = x
    · exact .inr (.inl (hr ▸ hi))
    by_cases hv : r = 15
    · exact .inr (.inr (.inr ⟨hv, .inl ⟨x, hi⟩⟩))
    · rw [State.getV_setFlagThen, if_neg hr, if_neg hv] at hne
      exact absurd rfl hne
  | @block x v hv => exact .inr (.inr (.inl ⟨x, le_of_not_gt fun hr => hne (hv r hr), rfl⟩))
  | draw x y n sprite =>
    by_cases hv : r = 15
    · exact .inr (.inr (.inr ⟨hv, .inr ⟨x, y, n, rfl⟩⟩))
    · exact absurd (State.getV_setV_ne _ _ hv) hne
  | _ => exact absurd rfl hne

theorem fault_writers (h : ExecEffect s i t) (hne : t.fault ≠ s.fault) : CanFault i := by
  cases h with
  | fault _ _ hi => exact hi
  | _ => exact absurd rfl hne

theorem sp_writers (h : ExecEffect s i t) (hne : t.sp ≠ s.sp) : i = .ret ∨ ∃ nnn, i = .call nnn := by
  cases h with
  | ret _ => exact .inl rfl
  | call nnn _ => exact .inr ⟨nnn, rfl⟩
  | _ => exact absurd rfl hne

theorem stack_writers (h : ExecEffect s i t) (hne : t.stack ≠ s.stack) : ∃ nnn, i = .call nnn := by
  cases h with
  | call nnn _ => exact ⟨nnn, rfl⟩
  | _ => exact absurd rfl hne

theorem dt_writers (h : ExecEffect s i t) (hne : t.dt ≠ s.dt) : ∃ x, i = .ldDTVx x := by
  cases h with
  | delay x => exact ⟨x, rfl⟩
  | _ => exact absurd rfl hne

theorem st_writers (h : ExecEffect s i t) (hne : t.st ≠ s.st) : ∃ x, i = .ldSTVx x := by
  cases h with
  | sound x => exact ⟨x, rfl⟩
  | _ => exact absurd rfl hne

theorem mem_writers (h : ExecEffect s i t) (hne : t.mem ≠ s.mem) : Stores i := by
  cases h with
  | store _ hi => exact hi
  | _ => exact absurd rfl hne

theorem fb_writers (h : ExecEffect s i t) (hne : t.fb ≠ s.fb) : i = .cls ∨ ∃ x y n, i = .drw x y n := by
  cases h with
  | clear => exact .inl rfl
  | draw x y n _ => exact .inr ⟨x, y, n, rfl⟩
  | _ => exact absurd rfl hne

theorem draw_writers (h : ExecEffect s i t) (hne : t.draw ≠ s.draw) : ∃ x y n, i = .drw x y n := by
  cases h with
  | draw x y n _ => exact ⟨x, y, n, rfl⟩
  | _ => exact absurd rfl hne

end ExecEffect

/-! ## The statements -/

/-- Settles O42: one lemma per piece of state, and `exec_untouched` for those that no instruction writes. -/
theorem stateChangesOnlyByItsWriters : Obligations.StateChangesOnlyByItsWriters := by
  intro i s t h
  have he := exec_effect h
  refine ⟨he.i_writers, fun hne => ?_, fun r hne => ?_, he.fault_writers, he.sp_writers, he.stack_writers,
    he.dt_writers, he.st_writers, he.mem_writers, he.fb_writers, he.draw_writers, exec_untouched h⟩
  · rcases he.pc_writers hne with hi | hi | (hi | hi | ⟨x, hi⟩) | ⟨x, hi⟩
    · exact .inl hi
    · exact .inr (.inl hi)
    · exact .inr (.inr (.inl hi))
    · exact .inr (.inr (.inr (.inl hi)))
    · exact .inr (.inr (.inr (.inr ⟨x, hi.imp_right .inl⟩)))
    · exact .inr (.inr (.inr (.inr ⟨x, .inr (.inr hi)⟩)))
  · rcases he.v_writers hne with (hi | ⟨y, hi⟩ | hi | hi) | ⟨y, hi⟩ | hi | ⟨hr, hi⟩
    · exact .inl hi
    · exact .inr (.inl ⟨y, by tauto⟩)
    · exact .inr (.inr (.inl hi))
    · exact .inr (.inr (.inr (.inl hi)))
    · exact .inr (.inl ⟨y, by tauto⟩)
    · exact .inr (.inr (.inr (.inr (.inl hi))))
    · exact .inr (.inr (.inr (.inr (.inr ⟨hr, hi⟩))))

/-- Settles O43: the register VF among the writers of a register; a block load that reaches VF is the one up to VF. -/
theorem onlySixWriteVFAsAFlag : Obligations.OnlySixWriteVFAsAFlag := by
  intro i s t h hne
  rcases (exec_effect h).v_writers hne with (hi | hi | hi | hi) | hi | ⟨x, hx, hi⟩ | ⟨-, hi | hi⟩
  · exact .inr (.inr (.inl hi))
  · exact .inr (.inr (.inr (.inl hi)))
  · exact .inr (.inr (.inr (.inr (.inl hi))))
  · exact .inr (.inr (.inr (.inr (.inr (.inl hi)))))
  · exact .inl ⟨15, hi⟩
  · have : x = 15 := Fin.le_antisymm (Fin.le_last x) hx
    exact .inr (.inr (.inr (.inr (.inr (.inr (this ▸ hi))))))
  · exact .inl hi
  · exact .inr (.inl hi)

/-- Settles O37: the instruction leaves the timer, then phase P6 counts it down (R125). -/
theorem timersOnlyCountDown : Obligations.TimersOnlyCountDown := by
  intro s t h hok
  obtain ⟨-, ⟨-, rfl⟩ | ⟨-, -, rfl⟩ | ⟨i, u, hi, hu, rfl⟩⟩ := stepWith_inv h
  · cases hok
  · cases hok
  · have he := exec_effect hu
    rw [State.nextInput_fault, finishStep_fault] at hok
    refine ⟨fun hno => ?_, fun hno => ?_⟩
    · have hdt : u.dt = s.dt := by
        by_contra hne
        obtain ⟨x, rfl⟩ := he.dt_writers hne
        exact hno x hi
      calc _ = (decTimer u.dt).toNat := congrArg BitVec.toNat (finishStep_dt hok)
        _ = s.dt.toNat - 1 := by rw [decTimer_toNat, hdt]
    · have hst : u.st = s.st := by
        by_contra hne
        obtain ⟨x, rfl⟩ := he.st_writers hne
        exact hno x hi
      calc _ = (decTimer u.st).toNat := congrArg BitVec.toNat (finishStep_st hok)
        _ = s.st.toNat - 1 := by rw [decTimer_toNat, hst]

end Sys2Proof.Machine
end

section
/-! SUPPORT. What the machine does not read: ST, DRAW and ENDED in any instruction (spec/10_state.md R28, R32, R33), and the inputs of the model in any transaction, but for the byte of a `RND` (R35, R36, R39). -/

namespace Sys2Proof.Machine

/-! ## ST, DRAW and ENDED -/

/-- The three components that only the host reads, given other values. -/
def State.withReports (s : State) (st : Byte) (draw ended : Bool) : State :=
  { s with st := st, draw := draw, ended := ended }

section
variable (s : State) (st : Byte) (draw ended : Bool)

theorem withReports_frame : FrameBut s (s.withReports st draw ended) [.st, .draw, .ended] := by
  intro p hp
  cases p with
  | st | draw | ended => simp at hp
  | inputs => exact ⟨rfl, rfl, rfl⟩
  | _ => rfl

theorem State.storeOrFault_withReports (a : Nat) (bs : List Byte) :
    (s.withReports st draw ended).storeOrFault a bs = (s.storeOrFault a bs).withReports st draw ended := by
  unfold State.storeOrFault State.memWrite
  cases accessFault a bs.length <;> rfl

theorem State.setBlock_withReports (bs : List Byte) : ∀ (s : State) (k : Nat),
    (s.withReports st draw ended).setBlock k bs = (s.setBlock k bs).withReports st draw ended := by
  induction bs with
  | nil => intro s k; rfl
  | cons b bs ih => intro s k; exact ih (s.setV (Fin.ofNat 16 k) b) (k + 1)

/-- With other values in the three, an instruction does the same but for what it leaves in the three. -/
theorem exec_withReports {i : Instr} {t : State} (h : exec i s = .next t) : ∃ st' draw' ended',
    exec i (s.withReports st draw ended) = .next (t.withReports st' draw' ended') := by
  cases i with
  | ldSTVx x => cases h; exact ⟨s.getV x, draw, ended, rfl⟩
  | drw x y n =>
    cases h
    simp only [exec, execDrw, State.loadOrFault, State.memRead, show (s.withReports st draw ended).base = s.base from rfl]
    cases accessFault s.base n.toNat with
    | none => exact ⟨st, true, ended, rfl⟩
    | some info => exact ⟨st, draw, ended, rfl⟩
  | ldVxMem x =>
    cases h
    refine ⟨st, draw, ended, ?_⟩
    simp only [exec, execLdVxMem, State.loadOrFault, State.memRead,
      show (s.withReports st draw ended).base = s.base from rfl]
    cases accessFault s.base (x.val + 1) with
    | none => exact congrArg _ (State.setBlock_withReports st draw ended _ s 0)
    | some info => rfl
  | ldB | ldMemVx => cases h; exact ⟨st, draw, ended, congrArg _ (s.storeOrFault_withReports st draw ended _ _)⟩
  | ret | call =>
    cases h
    refine ⟨st, draw, ended, congrArg Host.Outcome.next ?_⟩
    rw [apply_ite (State.withReports · st draw ended)]
    rfl
  | ldVxK x =>
    cases h
    refine ⟨st, draw, ended, ?_⟩
    simp only [exec, execLdVxK, show (s.withReports st draw ended).keys = s.keys from rfl]
    cases highestKey s.keys 16 <;> rfl
  | seByte | sneByte | seReg | sneReg | skp | sknp =>
    cases h
    refine ⟨st, draw, ended, ?_⟩
    simp only [exec, execSeByte, execSneByte, execSeReg, execSneReg, execSkp, execSknp, State.skipIf_eq]
    rfl
  | _ => cases h; exact ⟨st, draw, ended, rfl⟩

end

/-! ## The inputs -/

/-- The inputs that a step leaves for the next one (R35; log 2, log 3). -/
def Inputs.next (q : Inputs) : Inputs :=
  { rndIn := Config.rndInput (q.stepNo + 1), tickIn := Config.tickInput (q.stepNo + 1), stepNo := q.stepNo + 1 }

/-- Phases P6 and P7 read the tick alone, and that only when TIMER_PER_STEP is false (R125). -/
theorem finishStep_inputs {perStep : Bool} (q : Inputs) (u : State) (hq : perStep = true ∨ q.tickIn = u.tickIn) :
    finishStep perStep { u with toInputs := q } = { finishStep perStep u with toInputs := q } := by
  have htick : (perStep || q.tickIn) = (perStep || u.tickIn) := by
    rcases hq with rfl | e
    · rfl
    · rw [e]
  unfold finishStep
  cases u.fault.cause with
  | some f => rfl
  | none =>
    simp only [State.timerPhase, htick]
    split <;> rfl

/-- A step of a core with no fault recorded answers a next state. -/
theorem stepWith_answers (perStep : Bool) {s : State} (h0 : s.fault.cause = none) :
    ∃ t, stepWith perStep s = .next t := by
  cases hf : s.fetch with
  | error info => exact ⟨_, stepWith_fetchFault h0 hf⟩
  | ok w =>
    cases hd : decodeWord w with
    | error e => exact ⟨_, stepWith_unknown h0 hf hd⟩
    | ok i =>
      obtain ⟨u, hu⟩ := exec_next i s.entry
      exact ⟨_, stepWith_exec h0 hf hd hu⟩

/-- A step with other inputs does the same, if the byte is as before or no `RND` reads it, and the tick is as before or
TIMER_PER_STEP is true. -/
theorem stepWith_inputs {perStep : Bool} {s t : State} (q : Inputs)
    (hr : q.rndIn = s.rndIn ∨ ∀ x kk, ¬ Executes s (.rnd x kk)) (ht : perStep = true ∨ q.tickIn = s.tickIn)
    (h : stepWith perStep s = .next t) :
    stepWith perStep { s with toInputs := q } = .next { t with toInputs := q.next } := by
  obtain ⟨h0, ⟨hp, rfl⟩ | ⟨hp, hd, rfl⟩ | ⟨i, u, hi, hu, rfl⟩⟩ := stepWith_inv h
  · exact stepWith_fetchFault h0 (State.fetch_error _ hp)
  · exact stepWith_unknown h0 (fetch_wordAt hp) hd
  · have hq := exec_inputs (s := entryState s) q (hr.imp_right fun hno x kk e => hno x kk (e ▸ hi)) hu
    obtain ⟨-, -, -, htick, -⟩ := exec_untouched hu
    have htick : perStep = true ∨ q.tickIn = u.tickIn := ht.imp_right fun e => e.trans htick.symm
    rw [stepWith_executes (s := { s with toInputs := q }) hi hq, finishStep_inputs q u htick]
    rfl

/-! ## Transactions -/

theorem transact_step_next {perStep : Bool} {s t : State} {rnd : Byte} {tick : Bool}
    (h : stepWith perStep (s.withInput rnd tick) = .next t) :
    transact perStep s (.step rnd tick) = some (t, t.stepReport) := by
  simp only [transact, h]

theorem transact_step_faulted {perStep : Bool} {s : State} {f : Fault} (rnd : Byte) (tick : Bool)
    (h : s.fault.cause = some f) : transact perStep s (.step rnd tick) = some (s, .stepFault f) := by
  simp only [transact, stepWith_faulted (s := s.withInput rnd tick) h]

theorem State.load_inputs (q : Inputs) (s : State) (image : List Byte) :
    State.load { s with toInputs := q } image = ((s.load image).1, { (s.load image).2 with toInputs := q }) := by
  unfold State.load
  split <;> rfl

/-- With other inputs left by an earlier step, a transaction reports the same and leaves the same components. -/
theorem transact_inputs (perStep : Bool) (s : State) (q : Inputs) (tr : Transaction) : ∃ t t' r,
    transact perStep s tr = some (t, r) ∧ transact perStep { s with toInputs := q } tr = some (t', r) ∧
    t.toArch = t'.toArch := by
  cases tr with
  | reset => exact ⟨_, _, _, rfl, rfl, rfl⟩
  | setKeys mask => exact ⟨_, _, _, rfl, rfl, rfl⟩
  | observe => exact ⟨_, _, _, rfl, rfl, rfl⟩
  | load image =>
    exact ⟨_, { (s.load image).2 with toInputs := q }, _, rfl, by simp only [transact, State.load_inputs], rfl⟩
  | step rnd tick =>
    cases h0 : s.fault.cause with
    | some f => exact ⟨_, _, _, transact_step_faulted rnd tick h0, transact_step_faulted rnd tick h0, rfl⟩
    | none =>
      obtain ⟨t, ht⟩ := stepWith_answers perStep (s := s.withInput rnd tick) h0
      have ht' := stepWith_inputs { rndIn := rnd, tickIn := tick, stepNo := q.stepNo } (.inl rfl) (.inr rfl) ht
      have htr' := transact_step_next (s := { s with toInputs := q }) ht'
      exact ⟨t, _, _, transact_step_next ht, htr', rfl⟩

/-! ## The statements -/

/-- Settles O45. -/
theorem nothingReadsStDrawEnded : Obligations.NothingReadsStDrawEnded := by
  intro i s t st draw ended h
  obtain ⟨st', draw', ended', h'⟩ := exec_withReports s st draw ended h
  exact ⟨_, h', withReports_frame t st' draw' ended'⟩

/-- Settles O44: the step with the ports driven is compared with the step whose inputs are its own. -/
theorem onlyRndReadsTheRandomByte : Obligations.OnlyRndReadsTheRandomByte := by
  intro s rnd tick hno
  cases h0 : s.fault.cause with
  | some f => exact (stepWith_faulted (s := s.withInput rnd tick) h0).trans (stepWith_faulted h0).symm
  | none =>
    obtain ⟨t, ht⟩ := stepWith_answers true h0
    have hown := stepWith_inputs s.toInputs (.inl rfl) (.inl rfl) ht
    have hdriven := stepWith_inputs (s.withInput rnd tick).toInputs (.inr hno) (.inl rfl) ht
    exact hdriven.trans hown.symm

/-- Settles O58: two states with the same thirteen components differ in the inputs alone. -/
theorem thirteenComponentsAreTheWholeState : Obligations.ThirteenComponentsAreTheWholeState := by
  rintro perStep ⟨a, q⟩ ⟨a', q'⟩ tr (rfl : a = a')
  exact transact_inputs perStep ⟨a, q⟩ q' tr

end Sys2Proof.Machine
end

section
/-! SUPPORT. The reset state piece by piece (spec/10_state.md R37, R62), who writes the key latch (R31, R38), and the port view (R39). -/

namespace Sys2Proof.Machine

/-! ## The reset state -/

theorem getV_reset (r : Reg) : State.reset.getV r = 0 := Vector.getElem_replicate r.isLt

theorem getElem_reset_stack (k : Fin 16) : State.reset.stack[k] = 0 := Vector.getElem_replicate k.isLt

/-- FONT ends at 0x04F; what lies above it is 0 after reset (R37, R62). -/
theorem Memory.initial_above_font {a : Nat} (h : 0x50 ≤ a) : Memory.initial a = 0 :=
  List.getD_eq_default _ _ h

/-! ## The key latch -/

/-- KEYS is written by no step (R31, R121). -/
theorem stepWith_keys {perStep : Bool} {s t : State} (h : stepWith perStep s = .next t) : t.keys = s.keys := by
  obtain ⟨-, ⟨-, rfl⟩ | ⟨-, -, rfl⟩ | ⟨i, u, -, hu, rfl⟩⟩ := stepWith_inv h
  · rfl
  · rfl
  · rw [State.nextInput_keys, finishStep_eq]
    obtain ⟨hkeys, -⟩ := exec_untouched hu
    exact hkeys

theorem State.load_keys (s : State) (image : List Byte) : (s.load image).2.keys = s.keys := by
  unfold State.load
  split <;> rfl

/-- The two transactions that write the latch (R31, R37). -/
theorem transact_keys {perStep : Bool} {s t : State} {tr : Transaction} {r : Report}
    (h : transact perStep s tr = some (t, r)) (hne : t.keys ≠ s.keys) : tr = .reset ∨ tr = .setKeys t.keys := by
  cases tr with
  | reset => exact .inl rfl
  | setKeys mask => cases h; exact .inr rfl
  | load image => cases h; exact absurd (s.load_keys image) hne
  | observe => cases h; exact absurd rfl hne
  | step rnd tick =>
    simp only [transact] at h
    split at h
    · next hn => cases h; exact absurd (stepWith_keys hn) hne
    · cases h; exact absurd rfl hne
    · cases h

/-! ## The port view -/

/-- The byte port is a block write of one byte. -/
theorem loadByte_frame (s : State) (a : Addr) (b : Byte) : FrameBut s (s.loadByte a b) [.mem a.toNat] := by
  intro p hp
  refine setMem_frame s a.toNat [b] p fun ⟨k, hk, e⟩ => hp ?_
  have hk : k = 0 := by simpa using hk
  rw [e, hk]; exact List.mem_singleton.2 rfl

/-- R39, R76: the port's address taken apart into row and column. -/
theorem fbPort_cell (s : State) (row : Fin 32) (col : Fin 64) :
    s.fbPort (BitVec.ofNat 11 (row.val * 64 + col.val)) = s.fb.get row col := by
  have haddr : (BitVec.ofNat 11 (row.val * 64 + col.val)).toNat = row.val * 64 + col.val := by
    rw [BitVec.toNat_ofNat]; omega
  have hrow : Fin.ofNat 32 ((row.val * 64 + col.val) / 64) = row := Fin.ext (by rw [Fin.val_ofNat]; omega)
  have hcol : Fin.ofNat 64 ((row.val * 64 + col.val) % 64) = col := Fin.ext (by rw [Fin.val_ofNat]; omega)
  rw [State.fbPort, haddr, hrow, hcol]

/-- R39: the selectors 0 to 15 name V0 to VF. -/
theorem debugPort_register (s : State) (r : Reg) :
    s.debugPort (BitVec.ofNat 5 r.val) = some (BitVec.ofNat 16 (s.getV r).toNat) := by
  have hsel : (BitVec.ofNat 5 r.val).toNat = r.val := by rw [BitVec.toNat_ofNat]; omega
  have hr : Fin.ofNat 16 r.val = r := Fin.ofNat_val_eq_self r
  rw [State.debugPort, hsel, if_pos r.isLt, hr, BitVec.ofNat_toNat]

/-! ## The statements -/

/-- Settles O46; the 80 bytes of FONT are evaluated. -/
theorem resetStateIsTheSpecs : Obligations.ResetStateIsTheSpecs :=
  ⟨fun _ _ => rfl, getV_reset, rfl, rfl, getElem_reset_stack, rfl, rfl, rfl, Framebuffer.get_clear, rfl, rfl, rfl,
    rfl, fun _ => Memory.initial_above_font, by decide⟩

/-- Settles O53. -/
theorem onlySetKeysWritesTheLatch : Obligations.OnlySetKeysWritesTheLatch :=
  ⟨fun _ s mask => ⟨s.setKeys mask, rfl, rfl, setKeys_frame s mask⟩, fun _ _ _ => stepWith_keys,
    fun _ s image => ⟨_, _, rfl, s.load_keys image⟩, fun _ _ => ⟨State.reset, rfl, rfl⟩,
    fun _ _ _ _ _ => transact_keys,
    fun _ s => ⟨s.observe, rfl, rfl, rfl, rfl, rfl, rfl, rfl, rfl, rfl, rfl, rfl⟩⟩

/-- Settles O54. -/
theorem portsShowTheState : Obligations.PortsShowTheState :=
  ⟨fun s a b => ⟨Memory.read_write_same _ _ _, loadByte_frame s a b⟩, fbPort_cell, debugPort_register,
    fun s => by simp only [BitVec.ofNat_toNat]; exact ⟨rfl, rfl, rfl, rfl, rfl⟩⟩

end Sys2Proof.Machine
end

section
/-! SUPPORT. Main memory in the statements of spec/20_memory.md: the canonical form determined by what it reads, the two primitives (R67), `Load` (R73, R74), a word stored where the next step fetches (R63, R72), and words decoded. -/

namespace Sys2Proof.Machine

/-! ## The canonical form is determined by what is read -/

@[simp] theorem Memory.read_cons_same (k : Nat) (b : Byte) (m : Memory) : Memory.read ((k, b) :: m) k = b := if_pos rfl

theorem Memory.read_cons_ne {k a : Nat} (b : Byte) (m : Memory) (h : a ≠ k) : Memory.read ((k, b) :: m) a = m.read a :=
  if_neg h

/-- Below the first address that may be listed, memory reads as after reset. -/
theorem Memory.read_below {m : Memory} {lo a : Nat} (h : Memory.wfFrom lo m = true) (ha : a < lo) :
    m.read a = Memory.initial a := by
  induction m generalizing lo with
  | nil => rfl
  | cons p m ih =>
    obtain ⟨k, b⟩ := p
    obtain ⟨hk, -, -, hm⟩ := Memory.wfFrom_cons.1 h
    rw [Memory.read_cons_ne b m (by omega), ih hm (by omega)]

/-- The first listed cell differs from its reset contents, so a memory that reads the same lists no later one first. -/
theorem Memory.first_key_le {m m' : Memory} {lo k k' : Nat} {b b' : Byte}
    (h : Memory.wfFrom lo ((k, b) :: m) = true) (h' : Memory.wfFrom k' ((k', b') :: m') = true)
    (hr : ∀ a, Memory.read ((k, b) :: m) a = Memory.read ((k', b') :: m') a) : k' ≤ k := by
  obtain ⟨-, -, hb, -⟩ := Memory.wfFrom_cons.1 h
  by_contra hlt
  have hk := hr k
  rw [Memory.read_cons_same, Memory.read_below h' (by omega)] at hk
  exact hb hk

theorem Memory.wfFrom_first {lo k : Nat} {b : Byte} {m : Memory} (h : Memory.wfFrom lo ((k, b) :: m) = true) :
    Memory.wfFrom k ((k, b) :: m) = true := by
  obtain ⟨-, hrest⟩ := Memory.wfFrom_cons.1 h
  exact Memory.wfFrom_cons.2 ⟨Nat.le_refl k, hrest⟩

theorem Memory.eq_of_read_eq {m m' : Memory} {lo : Nat} (h : Memory.wfFrom lo m = true)
    (h' : Memory.wfFrom lo m' = true) (hr : ∀ a, m.read a = m'.read a) : m = m' := by
  induction m generalizing m' lo with
  | nil =>
    cases m' with
    | nil => rfl
    | cons p m' =>
      obtain ⟨-, -, hb, -⟩ := Memory.wfFrom_cons.1 h'
      exact absurd ((Memory.read_cons_same _ _ _).symm.trans (hr p.1).symm) hb
  | cons p m ih =>
    obtain ⟨k, b⟩ := p
    cases m' with
    | nil =>
      obtain ⟨-, -, hb, -⟩ := Memory.wfFrom_cons.1 h
      exact absurd ((Memory.read_cons_same _ _ _).symm.trans (hr k)) hb
    | cons p' m' =>
      obtain ⟨k', b'⟩ := p'
      obtain rfl : k = k' := Nat.le_antisymm (Memory.first_key_le h' (Memory.wfFrom_first h) fun a => (hr a).symm)
        (Memory.first_key_le h (Memory.wfFrom_first h') hr)
      obtain rfl : b = b' := by simpa using hr k
      obtain ⟨-, -, -, hm⟩ := Memory.wfFrom_cons.1 h
      obtain ⟨-, -, -, hm'⟩ := Memory.wfFrom_cons.1 h'
      have htail : ∀ a, Memory.read m a = Memory.read m' a := fun a => by
        by_cases ha : a = k
        · have hlt : a < k + 1 := by omega
          rw [Memory.read_below hm hlt, Memory.read_below hm' hlt]
        · simpa only [Memory.read_cons_ne b _ ha] using hr a
      rw [ih hm hm' htail]

/-! ## The two primitives (R67) -/

theorem Memory.readBytes_eq_map (m : Memory) (a n : Nat) :
    m.readBytes a n = (List.range n).map fun k => m.read (a + k) :=
  List.ext_getElem (by simp) fun k _ _ => by simp

theorem State.memWrite_ok (s : State) {a : Nat} {bs : List Byte} (h : bs.length = 0 ∨ a + bs.length ≤ 0x1000) :
    s.memWrite a bs = .ok (s.setMem (s.mem.writeBytes a bs)) := by
  simp [State.memWrite, accessFault_eq_none.2 h]

theorem State.memWrite_error (s : State) {a : Nat} {bs : List Byte} (h0 : bs.length ≠ 0) (h : 0x1000 < a + bs.length) :
    s.memWrite a bs = .error (BitVec.ofNat 16 (min (a + bs.length - 1) 0xFFFF)) := by
  simp [State.memWrite, accessFault_of_lt h0 h]

/-! ## Load (R73) -/

theorem State.load_ok (s : State) {image : List Byte} (h : image.length ≤ 3584) :
    s.load image = (true, s.setMem (s.mem.writeBytes 0x200 image)) :=
  if_neg (Nat.not_lt.2 h)

theorem State.load_refused (s : State) {image : List Byte} (h : 3584 < image.length) : s.load image = (false, s) :=
  if_pos h

/-! ## A word stored where the next step fetches -/

theorem wordOfBytes_eq_ofNat (hi lo : Byte) : wordOfBytes hi lo = BitVec.ofNat 16 (hi.toNat * 256 + lo.toNat) := by
  apply BitVec.eq_of_toNat_eq
  rw [wordOfBytes, toNat_append, BitVec.toNat_ofNat]; omega

/-- R63: after a block write, the word at its first address is made of the block's first two bytes. -/
theorem wordAt_writeBytes (s : State) (m : Memory) (a : Nat) {bs : List Byte} (h : 2 ≤ bs.length) :
    wordAt (s.setMem (m.writeBytes a bs)) a = wordOfBytes bs[0] bs[1] := by
  rw [wordAt_eq, State.setMem_mem, Memory.read_writeBytes_in m a (k := 1) h]
  rw [← Memory.read_writeBytes_in m a (k := 0) (by omega), Nat.add_zero]

/-- The phases after the instruction move neither pc nor memory. -/
theorem stepEnd_pc (perStep : Bool) (u : State) : (finishStep perStep u).nextInput.pc = u.pc := by
  rw [State.nextInput_pc, finishStep_eq]

theorem stepEnd_wordAt (perStep : Bool) (u : State) (a : Nat) :
    wordAt (finishStep perStep u).nextInput a = wordAt u a := by
  rw [finishStep_eq]; rfl

/-- R194: a block store inside memory. -/
theorem exec_ldMemVx_ok {s : State} {x : Reg} (h : s.i.toNat + x.val ≤ 0xFFF) :
    exec (.ldMemVx x) s = .next (s.setMem (s.mem.writeBytes s.i.toNat (s.block x))) := by
  have hl := s.length_block x
  exact congrArg Host.Outcome.next (s.storeOrFault_ok (.inr (by rw [hl, State.base]; omega)))

/-- R194: the word a block store of at least two registers leaves at I. -/
theorem wordAt_block (s : State) (m : Memory) (a : Nat) {x : Reg} (h : 1 ≤ x.val) :
    wordAt (s.setMem (m.writeBytes a (s.block x))) a = wordOfBytes (s.getV 0) (s.getV 1) := by
  rw [wordAt_writeBytes s m a (by rw [s.length_block]; omega), State.getElem_block, State.getElem_block]
  rfl

/-! ## The host's way to place a word (log 9) -/

theorem State.fetchable_running (s : State) : s.fetchable.fault.cause = none := by
  unfold State.fetchable
  split
  · next h => exact h.1
  · split <;> rfl

theorem State.fetchable_pc_le (s : State) : s.fetchable.pc.toNat ≤ 0xFFE := by
  unfold State.fetchable
  split
  · next h => exact h.2
  · split
    · assumption
    · exact (by decide : Config.progBase.toNat ≤ 0xFFE)

theorem State.fetchable_self {s : State} (h0 : s.fault.cause = none) (hp : s.pc.toNat ≤ 0xFFE) : s.fetchable = s :=
  if_pos ⟨h0, hp⟩

theorem State.withFetchWord_word (s : State) (w : Word) : s.withFetchWord 16 w.toNat = s.placeWord w := by
  rw [State.withFetchWord, Nat.mod_eq_of_lt w.isLt, BitVec.ofNat_toNat, BitVec.setWidth_eq]

theorem State.wordAt_placeWord (s : State) (w : Word) : wordAt (s.placeWord w) (s.placeWord w).pc.toNat = w :=
  (wordAt_writeBytes s.fetchable _ _ (bs := bytesOfWord w) (Nat.le_refl 2)).trans (wordOfBytes_bytesOfWord w)

/-- Placing a word in a running core changes its two bytes and nothing else. -/
theorem State.placeWord_frame {s : State} (w : Word) (h0 : s.fault.cause = none) (hp : s.pc.toNat ≤ 0xFFE) :
    FrameBut s (s.placeWord w) [.mem s.pc.toNat, .mem (s.pc.toNat + 1)] := by
  rw [State.placeWord, State.fetchable_self h0 hp]
  intro p hp
  refine setMem_frame s s.pc.toNat (bytesOfWord w) p fun ⟨k, hk, e⟩ => hp ?_
  have hk : k < 2 := hk
  obtain rfl | rfl : k = 0 ∨ k = 1 := by omega
  · simp [e]
  · simp [e]

/-! ## The statements -/

/-- Settles O50. -/
theorem memoryPrimitives : Obligations.MemoryPrimitives := by
  have hlen : ∀ {bs : List Byte}, bs ≠ [] → bs.length ≠ 0 := fun h e => h (List.length_eq_zero_iff.1 e)
  refine ⟨fun s a n h0 h => s.memRead_error h0 (by omega), fun s a n h => ?_,
    fun s a bs h0 h => s.memWrite_error (hlen h0) (by omega), fun s a bs h => ?_,
    fun s a bs h0 h => s.storeOrFault_error (hlen h0) (by omega),
    fun s a n use h0 h => s.loadOrFault_error use h0 (by omega)⟩
  · rw [s.memRead_ok (by omega), Memory.readBytes_eq_map]
  · have hr : bs.length = 0 ∨ a + bs.length ≤ 0x1000 := by
      rcases h with rfl | h
      · exact .inl rfl
      · omega
    exact ⟨_, s.memWrite_ok hr, fun _ => Memory.read_writeBytes_in s.mem a, setMem_frame s a bs⟩

/-- Settles O51, by induction on the first list. -/
theorem canonicalMemoryIsDetermined : Obligations.CanonicalMemoryIsDetermined :=
  fun _ _ => Memory.eq_of_read_eq

/-- Settles O52. -/
theorem loadPlacesTheImage : Obligations.LoadPlacesTheImage := by
  refine ⟨fun s image h => ?_, fun s image => s.load_refused⟩
  rw [s.load_ok h]
  exact ⟨rfl, fun _ => Memory.read_writeBytes_in s.mem 0x200, setMem_frame s 0x200 image⟩

/-- Settles O40: the block store puts V0 and V1 at I, and the phases after it keep pc and memory. -/
theorem storedWordIsFetchedNext : Obligations.StoredWordIsFetchedNext := by
  intro s x hx h1 hi hr
  refine ⟨_, stepWith_executes hx (exec_ldMemVx_ok (s := entryState s) hr), ?_⟩
  rw [stepEnd_wordAt, stepEnd_pc, ← wordOfBytes_eq_ofNat]
  have hpc : (entryState s).pc = s.i := hi.symm
  refine ⟨hpc, ?_⟩
  rw [State.setMem_pc, hpc]
  exact wordAt_block (entryState s) s.mem s.i.toNat h1

/-- Settles O56. -/
theorem placedWordIsFetched : Obligations.PlacedWordIsFetched := by
  intro s w
  rw [s.withFetchWord_word w]
  exact ⟨s.fetchable_running, s.fetchable_pc_le, s.wordAt_placeWord w, State.placeWord_frame w⟩

/-- Settles O29; each word is evaluated. -/
theorem specWordsDecode : Obligations.SpecWordsDecode :=
  ⟨rfl, rfl, rfl, rfl, rfl, rfl, rfl, rfl, rfl, rfl⟩

end Sys2Proof.Machine
end

section
/-! SUPPORT. Encoding and decoding in the statements of spec/30_encoding.md: the decoder on an assembled word (R93 to R98), the word of what was decoded (R103), the rows of the opcode table (R100), the illegal words (R101). -/

namespace Sys2Proof

/-! ## The decoder on an assembled word -/

/-- The cases are the levels of the dispatch: the whole word, OP alone, then OP with N or KK. -/
theorem decodeWord_encodeWord (i : Instr) : decodeWord (encodeWord i) = .ok i := by
  cases i with
  | cls | ret => rfl
  | jp | call | ldI | jpV0 => simp [encodeWord, decodeWord]
  | seByte | sneByte | ldByte | addByte | rnd => simp [encodeWord, decodeWord]
  | seReg | sneReg | drw => simp [encodeWord, decodeWord]
  | ldReg | orReg | andReg | xorReg | addReg | subReg | shr | subnReg | shl =>
    simp [encodeWord, decodeWord, decodeOp8]
  | skp | sknp => simp [encodeWord, decodeWord, decodeOpE]
  | ldVxDT | ldVxK | ldDTVx | ldSTVx | addI | ldF | ldB | ldMemVx | ldVxMem =>
    simp [encodeWord, decodeWord, decodeOpF]

theorem decode_encode_append (i : Instr) (rest : List Byte) : decode (encode i ++ rest) = .ok (i, rest) := by
  rw [encode, decode_bytesOfWord, decodeWord_encodeWord]

/-! ## A word from the fields its dispatch has tested -/

theorem wordA_of_fieldOP {w : Word} {op : Nibble} (h : fieldOP w = op) : wordA op (fieldNNN w) = w := by
  rw [← h, wordA_fields]

theorem wordXK_of_fieldOP {w : Word} {op : Nibble} (h : fieldOP w = op) :
    wordXK op (fieldX w) (fieldKK w) = w := by
  rw [← h, wordXK_fields]

theorem wordXK_of_fieldOP_fieldKK {w : Word} {op : Nibble} {kk : Byte} (h : fieldOP w = op) (hk : fieldKK w = kk) :
    wordXK op (fieldX w) kk = w := by
  rw [← hk, wordXK_of_fieldOP h]

theorem wordXYN_of_fieldOP {w : Word} {op : Nibble} (h : fieldOP w = op) :
    wordXYN op (fieldX w) (fieldY w) (fieldN w) = w := by
  rw [← h, wordXYN_fields]

theorem wordXYN_of_fieldOP_fieldN {w : Word} {op n : Nibble} (h : fieldOP w = op) (hn : fieldN w = n) :
    wordXYN op (fieldX w) (fieldY w) n = w := by
  rw [← hn, wordXYN_of_fieldOP h]

/-! ## The word of what was decoded, level by level -/

theorem encodeWord_of_decodeOp0 {w : Word} {i : Instr} (hd : decodeOp0 w = .ok i) : encodeWord i = w := by
  unfold decodeOp0 at hd
  split_ifs at hd with h1 h2 <;> cases hd
  · exact h1.symm
  · exact h2.symm

theorem encodeWord_of_decodeOp8 {w : Word} {i : Instr} (h : fieldOP w = 0x8) (hd : decodeOp8 w = .ok i) :
    encodeWord i = w := by
  unfold decodeOp8 at hd
  split at hd <;> cases hd <;> exact wordXYN_of_fieldOP_fieldN h (BitVec.eq_of_toNat_eq ‹_›)

theorem encodeWord_of_decodeOpE {w : Word} {i : Instr} (h : fieldOP w = 0xE) (hd : decodeOpE w = .ok i) :
    encodeWord i = w := by
  unfold decodeOpE at hd
  split_ifs at hd <;> cases hd <;> exact wordXK_of_fieldOP_fieldKK h ‹_›

theorem encodeWord_of_decodeOpF {w : Word} {i : Instr} (h : fieldOP w = 0xF) (hd : decodeOpF w = .ok i) :
    encodeWord i = w := by
  unfold decodeOpF at hd
  split_ifs at hd <;> cases hd <;> exact wordXK_of_fieldOP_fieldKK h ‹_›

/-- The first level (R94): a word whose OP has no second level is put together again from its fields. -/
theorem encodeWord_of_decodeWord {w : Word} {i : Instr} (hd : decodeWord w = .ok i) : encodeWord i = w := by
  have hop {op : Nibble} (h : (fieldOP w).toNat = op.toNat) : fieldOP w = op := BitVec.eq_of_toNat_eq h
  unfold decodeWord at hd
  split at hd
  case h_1 => exact encodeWord_of_decodeOp0 hd
  case h_9 h => exact encodeWord_of_decodeOp8 (hop h) hd
  case h_15 h => exact encodeWord_of_decodeOpE (hop h) hd
  case h_16 h => exact encodeWord_of_decodeOpF (hop h) hd
  case h_17 => cases hd
  all_goals cases hd; rename_i h
  case h_2 | h_3 | h_11 | h_12 => exact wordA_of_fieldOP (hop h)
  case h_4 | h_5 | h_7 | h_8 | h_13 => exact wordXK_of_fieldOP (hop h)
  case h_6 | h_10 | h_14 => exact wordXYN_of_fieldOP (hop h)

/-! ## The rows of R100 -/

/-- Every word of the row is the word of an instruction of the row. -/
def RowEncodes (row : String × Word × Word) : Prop :=
  ∀ w : Word, w &&& row.2.1 = row.2.2 → ∃ i : Instr, encodeWord i = w ∧ i.mnemonic = row.1

/-- A row keyed by the whole word. -/
theorem rowEncodes_word (i : Instr) : RowEncodes (i.mnemonic, 0xFFFF, encodeWord i) := by
  intro w h
  exact ⟨i, by rw [← BitVec.and_allOnes (x := w)]; exact h.symm, rfl⟩

theorem fieldOP_of_and_F000 {w pattern : Word} (h : w &&& 0xF000 = pattern) : fieldOP w = fieldOP pattern := by
  rw [← h, and_mask_OP, fieldOP_wordA]

theorem fields_of_and_F00F {w pattern : Word} (h : w &&& 0xF00F = pattern) :
    fieldOP w = fieldOP pattern ∧ fieldN w = fieldN pattern := by
  rw [← h, and_mask_OP_N, fieldOP_wordXYN, fieldN_wordXYN]; exact ⟨rfl, rfl⟩

theorem fields_of_and_F0FF {w pattern : Word} (h : w &&& 0xF0FF = pattern) :
    fieldOP w = fieldOP pattern ∧ fieldKK w = fieldKK pattern := by
  rw [← h, and_mask_OP_KK, fieldOP_wordXK, fieldKK_wordXK]; exact ⟨rfl, rfl⟩

/-- A row of format A, keyed by OP. What `mk` builds is checked by evaluation, here and in the lemmas of the other formats. -/
theorem rowEncodes_A {m : String} {pattern : Word} (mk : Addr → Instr)
    (hm : ∀ nnn, (mk nnn).mnemonic = m := by intros; rfl)
    (he : ∀ nnn, encodeWord (mk nnn) = wordA (fieldOP pattern) nnn := by intros; rfl) :
    RowEncodes (m, 0xF000, pattern) :=
  fun _ h => ⟨mk _, (he _).trans (wordA_of_fieldOP (fieldOP_of_and_F000 h)), hm _⟩

/-- A row of format XK, keyed by OP. -/
theorem rowEncodes_XK {m : String} {pattern : Word} (mk : Reg → Byte → Instr)
    (hm : ∀ x kk, (mk x kk).mnemonic = m := by intros; rfl)
    (he : ∀ x kk, encodeWord (mk x kk) = wordXK (fieldOP pattern) x kk := by intros; rfl) :
    RowEncodes (m, 0xF000, pattern) :=
  fun _ h => ⟨mk _ _, (he _ _).trans (wordXK_of_fieldOP (fieldOP_of_and_F000 h)), hm _ _⟩

/-- A row of formats XYN and XY with N ignored, keyed by OP. -/
theorem rowEncodes_XYN {m : String} {pattern : Word} (mk : Reg → Reg → Nibble → Instr)
    (hm : ∀ x y n, (mk x y n).mnemonic = m := by intros; rfl)
    (he : ∀ x y n, encodeWord (mk x y n) = wordXYN (fieldOP pattern) x y n := by intros; rfl) :
    RowEncodes (m, 0xF000, pattern) :=
  fun _ h => ⟨mk _ _ _, (he _ _ _).trans (wordXYN_of_fieldOP (fieldOP_of_and_F000 h)), hm _ _ _⟩

/-- A row of format XYn, keyed by OP and N. -/
theorem rowEncodes_XY {m : String} {pattern : Word} (mk : Reg → Reg → Instr)
    (hm : ∀ x y, (mk x y).mnemonic = m := by intros; rfl)
    (he : ∀ x y, encodeWord (mk x y) = wordXYN (fieldOP pattern) x y (fieldN pattern) := by intros; rfl) :
    RowEncodes (m, 0xF00F, pattern) := fun _ h =>
  have ⟨hop, hn⟩ := fields_of_and_F00F h
  ⟨mk _ _, (he _ _).trans (wordXYN_of_fieldOP_fieldN hop hn), hm _ _⟩

/-- A row of format XS, keyed by OP and KK. -/
theorem rowEncodes_XS {m : String} {pattern : Word} (mk : Reg → Instr)
    (hm : ∀ x, (mk x).mnemonic = m := by intros; rfl)
    (he : ∀ x, encodeWord (mk x) = wordXK (fieldOP pattern) x (fieldKK pattern) := by intros; rfl) :
    RowEncodes (m, 0xF0FF, pattern) := fun _ h =>
  have ⟨hop, hk⟩ := fields_of_and_F0FF h
  ⟨mk _, (he _).trans (wordXK_of_fieldOP_fieldKK hop hk), hm _⟩

/-- The table row by row, in its order, each with the constructor of its instructions. -/
theorem rowEncodes_of_mem_opcodeTable : ∀ row ∈ opcodeTable, RowEncodes row := by
  simp only [opcodeTable, List.cons_append, List.nil_append, List.forall_mem_cons]
  exact ⟨rowEncodes_word .cls, rowEncodes_word .ret, rowEncodes_A .jp, rowEncodes_A .call, rowEncodes_XK .seByte,
    rowEncodes_XK .sneByte, rowEncodes_XYN .seReg, rowEncodes_XK .ldByte, rowEncodes_XK .addByte,
    rowEncodes_XY .ldReg, rowEncodes_XY .orReg, rowEncodes_XY .andReg, rowEncodes_XY .xorReg,
    rowEncodes_XY .addReg, rowEncodes_XY .subReg, rowEncodes_XY .shr, rowEncodes_XY .subnReg, rowEncodes_XY .shl,
    rowEncodes_XYN .sneReg, rowEncodes_A .ldI, rowEncodes_A .jpV0, rowEncodes_XK .rnd, rowEncodes_XYN .drw,
    rowEncodes_XS .skp, rowEncodes_XS .sknp, rowEncodes_XS .ldVxDT, rowEncodes_XS .ldVxK, rowEncodes_XS .ldDTVx,
    rowEncodes_XS .ldSTVx, rowEncodes_XS .addI, rowEncodes_XS .ldF, rowEncodes_XS .ldB, rowEncodes_XS .ldMemVx,
    rowEncodes_XS .ldVxMem, List.forall_mem_nil _⟩

theorem decodeWord_of_mem_opcodeTable {row : String × Word × Word} (hr : row ∈ opcodeTable) {w : Word}
    (h : w &&& row.2.1 = row.2.2) : ∃ i, decodeWord w = .ok i ∧ i.mnemonic = row.1 := by
  obtain ⟨i, rfl, hm⟩ := rowEncodes_of_mem_opcodeTable row hr w h
  exact ⟨i, decodeWord_encodeWord i, hm⟩

open Laws.TableRow in
/-- The word of every instruction matches its row: one lemma per constructor. -/
theorem tableRow : ∀ i : Instr, Statement i
  | .cls => cls | .ret => ret | .jp _ => jp _ | .call _ => call _ | .seByte _ _ => seByte _ _
  | .sneByte _ _ => sneByte _ _ | .seReg _ _ _ => seReg _ _ _ | .ldByte _ _ => ldByte _ _
  | .addByte _ _ => addByte _ _ | .ldReg _ _ => ldReg _ _ | .orReg _ _ => orReg _ _
  | .andReg _ _ => andReg _ _ | .xorReg _ _ => xorReg _ _ | .addReg _ _ => addReg _ _
  | .subReg _ _ => subReg _ _ | .shr _ _ => shr _ _ | .subnReg _ _ => subnReg _ _ | .shl _ _ => shl _ _
  | .sneReg _ _ _ => sneReg _ _ _ | .ldI _ => ldI _ | .jpV0 _ => jpV0 _ | .rnd _ _ => rnd _ _
  | .drw _ _ _ => drw _ _ _ | .skp _ => skp _ | .sknp _ => sknp _ | .ldVxDT _ => ldVxDT _
  | .ldVxK _ => ldVxK _ | .ldDTVx _ => ldDTVx _ | .ldSTVx _ => ldSTVx _ | .addI _ => addI _ | .ldF _ => ldF _
  | .ldB _ => ldB _ | .ldMemVx _ => ldMemVx _ | .ldVxMem _ => ldVxMem _

theorem nodup_mnemonics : (opcodeTable.map Prod.fst).Nodup := by decide

/-- The rows do not overlap: the word decodes to one instruction, and its mnemonic names one row. -/
theorem opcodeTable_row_unique {w : Word} {r r' : String × Word × Word} (hr : r ∈ opcodeTable) (hr' : r' ∈ opcodeTable)
    (h : w &&& r.2.1 = r.2.2) (h' : w &&& r'.2.1 = r'.2.2) : r = r' := by
  obtain ⟨i, hi, hm⟩ := decodeWord_of_mem_opcodeTable hr h
  obtain ⟨j, hj, hm'⟩ := decodeWord_of_mem_opcodeTable hr' h'
  have hij : i = j := Except.ok.inj (hi.symm.trans hj)
  exact List.inj_on_of_nodup_map nodup_mnemonics hr hr' (by rw [← hm, ← hm', hij])

/-! ## The illegal words, level by level -/

theorem decodeOp0_eq_error_iff (w : Word) :
    decodeOp0 w = .error (.unknown w) ↔ w.toNat ≠ 0x00E0 ∧ w.toNat ≠ 0x00EE := by
  have h1 : w = 0x00E0 ↔ w.toNat = 0x00E0 := BitVec.toNat_inj.symm
  have h2 : w = 0x00EE ↔ w.toNat = 0x00EE := BitVec.toNat_inj.symm
  unfold decodeOp0
  split_ifs <;> simp_all

theorem decodeOp8_eq_error_iff (w : Word) :
    decodeOp8 w = .error (.unknown w) ↔ w.toNat % 16 ∈ [8, 9, 0xA, 0xB, 0xC, 0xD, 0xF] := by
  have := (fieldN w).isLt
  rw [← toNat_fieldN]
  unfold decodeOp8
  split
  case h_10 => simp only [imp_false] at *; simp; omega
  all_goals simp [*]

theorem decodeOpE_eq_error_iff (w : Word) :
    decodeOpE w = .error (.unknown w) ↔ w.toNat % 256 ∉ [0x9E, 0xA1] := by
  have hk (k : Byte) : fieldKK w = k ↔ (fieldKK w).toNat = k.toNat := BitVec.toNat_inj.symm
  rw [← toNat_fieldKK]
  unfold decodeOpE
  split_ifs <;> simp_all

theorem decodeOpF_eq_error_iff (w : Word) : decodeOpF w = .error (.unknown w) ↔
    w.toNat % 256 ∉ [0x07, 0x0A, 0x15, 0x18, 0x1E, 0x29, 0x33, 0x55, 0x65] := by
  have hk (k : Byte) : fieldKK w = k ↔ (fieldKK w).toNat = k.toNat := BitVec.toNat_inj.symm
  rw [← toNat_fieldKK]
  unfold decodeOpF
  split_ifs <;> simp_all

/-- The first level (R94) rejects nothing itself: a rejected word has an OP with a second level, which rejects it. -/
theorem decodeWord_eq_error_iff (w : Word) : decodeWord w = .error (.unknown w) ↔
    (w.toNat / 4096 = 0 ∧ decodeOp0 w = .error (.unknown w)) ∨
    (w.toNat / 4096 = 8 ∧ decodeOp8 w = .error (.unknown w)) ∨
    (w.toNat / 4096 = 0xE ∧ decodeOpE w = .error (.unknown w)) ∨
    (w.toNat / 4096 = 0xF ∧ decodeOpF w = .error (.unknown w)) := by
  have := (fieldOP w).isLt
  rw [← toNat_fieldOP]
  unfold decodeWord
  split
  case h_17 => simp only [imp_false] at *; omega
  all_goals simp [*]

/-! ## The statements -/

/-- Settles O25: on the word, then on its two bytes at the head of a list. -/
theorem decodeOfEncode : Obligations.DecodeOfEncode :=
  fun i => ⟨decodeWord_encodeWord i, decode_encode_append i⟩

/-- Settles O26. -/
theorem encodeOfDecode : Obligations.EncodeOfDecode :=
  fun _ _ => encodeWord_of_decodeWord

/-- Settles O27: both directions go through the word of an instruction. -/
theorem decodeFollowsTheOpcodeTable : Obligations.DecodeFollowsTheOpcodeTable := by
  refine ⟨rfl, fun _ _ _ _ hr h => decodeWord_of_mem_opcodeTable hr h, fun w i hd => ?_,
    fun _ _ _ => opcodeTable_row_unique⟩
  rw [← encodeWord_of_decodeWord hd]
  exact tableRow i

/-- Settles O28: the first level, then each second level. -/
theorem illegalWordsAreTheSpecs : Obligations.IllegalWordsAreTheSpecs := by
  intro w
  rw [decodeWord_eq_error_iff, decodeOp0_eq_error_iff, decodeOp8_eq_error_iff, decodeOpE_eq_error_iff,
    decodeOpF_eq_error_iff]

end Sys2Proof
end

section
/-! SUPPORT. The step in the statements of spec/40_step.md: what a fault leaves (R122, R128), the phases after the instruction (R125, R126), and the `Step` transaction (R127, R129). -/

namespace Sys2Proof.Machine

/-! ## The step of an instruction -/

/-- `stepWith_executes` read backwards: the step of `i` is `exec i`, then the phases after it. -/
theorem Executes.stepWith_inv {perStep : Bool} {s t : State} {i : Instr} (hi : Executes s i)
    (h : stepWith perStep s = .next t) :
    ∃ u, exec i (entryState s) = .next u ∧ t = (finishStep perStep u).nextInput := by
  obtain ⟨u, hu⟩ := exec_next i (entryState s)
  rw [stepWith_executes hi hu] at h
  cases h
  exact ⟨u, hu, rfl⟩

/-- What follows the instruction changes the timers and ENDED, and puts fresh inputs on the ports. -/
theorem stepEnd_frame (perStep : Bool) (u : State) :
    FrameBut u (finishStep perStep u).nextInput [.dt, .st, .ended, .inputs] := by
  rw [finishStep_eq]
  intro p hp
  cases p with
  | dt | st | ended | inputs => simp at hp
  | _ => rfl

theorem stepEnd_fault (perStep : Bool) (u : State) : (finishStep perStep u).nextInput.fault = u.fault :=
  finishStep_fault perStep u

/-! ## What a fault leaves (R122, R128, R250) -/

/-- R122: a fetch fault leaves pc at A. -/
theorem fetchFault_frame (s : State) (f : Fault) (info : Word) :
    FrameBut s (s.beginStep.raiseAt s.pc f info).nextInput [.draw, .fault, .inputs] := by
  intro p hp
  cases p with
  | draw | fault | inputs => simp at hp
  | _ => rfl

/-- R128: a fault after the fetch leaves pc past the instruction. -/
theorem entryFault_frame (s : State) (f : Fault) (info : Word) :
    FrameBut s ((entryState s).raise f info).nextInput [.pc, .draw, .fault, .inputs] := by
  intro p hp
  cases p with
  | pc | draw | fault | inputs => simp at hp
  | _ => rfl

/-- The address recorded by a fault after the fetch is the one fetched from (R121, R128). -/
theorem entryFault_fault (s : State) (f : Fault) (info : Word) :
    ((entryState s).raise f info).nextInput.fault = { cause := some f, addr := s.pc, info := info } := by
  rw [State.nextInput_fault, State.raise_fault, show (entryState s).pc - 2 = s.pc from BitVec.add_sub_cancel s.pc 2]

/-- A step whose instruction faults leaves the instruction's record on the entry state, and does no more (R128). -/
theorem Executes.stepWith_raise {perStep : Bool} {s t : State} {i : Instr} (hi : Executes s i)
    (h : stepWith perStep s = .next t) (hf : t.fault.cause ≠ none) : ∃ f info,
    exec i (entryState s) = .next ((entryState s).raise f info) ∧ t = ((entryState s).raise f info).nextInput := by
  obtain ⟨u, hu, rfl⟩ := hi.stepWith_inv h
  rw [stepEnd_fault] at hf
  obtain ⟨h0, -, -⟩ := hi
  rw [finishStep_faulted hf]
  obtain ⟨f, info, rfl⟩ := exec_raises (s := entryState s) h0 hu hf
  exact ⟨f, info, hu, rfl⟩

/-! ## The timers (R125) -/

theorem finishStep_timers_of_tick {perStep : Bool} {u : State} (h : u.fault.cause = none)
    (ht : perStep = true ∨ u.tickIn = true) :
    (finishStep perStep u).dt = decTimer u.dt ∧ (finishStep perStep u).st = decTimer u.st := by
  rw [finishStep_ok h, State.timerPhase, if_pos (Bool.or_eq_true_iff.2 ht)]
  exact ⟨rfl, rfl⟩

theorem finishStep_timers_of_no_tick {u : State} (h : u.fault.cause = none) (ht : u.tickIn = false) :
    (finishStep false u).dt = u.dt ∧ (finishStep false u).st = u.st := by
  rw [finishStep_ok h, State.timerPhase, if_neg (by rw [ht]; decide)]
  exact ⟨rfl, rfl⟩

/-! ## The ended report (R126) -/

theorem State.nextWordZero_iff_bytes (s : State) : s.nextWordZero = true ↔
    s.pc.toNat ≤ 0xFFE ∧ s.mem.read s.pc.toNat = 0 ∧ s.mem.read (s.pc.toNat + 1) = 0 := by
  simp only [State.nextWordZero, Bool.and_eq_true, decide_eq_true_eq, and_assoc]

theorem wordAt_eq_zero_iff (s : State) (a : Nat) : wordAt s a = 0 ↔ s.mem.read a = 0 ∧ s.mem.read (a + 1) = 0 := by
  have := (s.mem.read a).isLt
  have := (s.mem.read (a + 1)).isLt
  simp only [wordAt, ← BitVec.toNat_inj, BitVec.ofNat_eq_ofNat, BitVec.toNat_ofNat]
  omega

theorem State.nextWordZero_iff_wordAt (s : State) :
    s.nextWordZero = true ↔ s.pc.toNat ≤ 0xFFE ∧ wordAt s s.pc.toNat = 0 := by
  rw [s.nextWordZero_iff_bytes, wordAt_eq_zero_iff]

/-- The look is at the state the step leaves: what follows the instruction moves neither pc nor memory. -/
theorem nextWordZero_stepEnd (perStep : Bool) (u : State) :
    (finishStep perStep u).nextInput.nextWordZero = u.nextWordZero := by
  rw [finishStep_eq]
  rfl

/-! ## The `Step` transaction (R127) -/

theorem State.stepReport_ok {s : State} (h : s.fault.cause = none) : s.stepReport = .stepOk s.ended := by
  simp only [State.stepReport, h]

theorem State.stepReport_fault {s : State} {f : Fault} (h : s.fault.cause = some f) : s.stepReport = .stepFault f := by
  simp only [State.stepReport, h]

theorem withInput_frame (s : State) (rnd : Byte) (tick : Bool) : FrameBut s (s.withInput rnd tick) [.inputs] := by
  intro p hp
  cases p with
  | inputs => simp at hp
  | _ => rfl

/-- R172: the step of a `RND` puts the byte on the port under the mask into Vx, and records no fault. -/
theorem stepWith_rnd (perStep : Bool) {s : State} {x : Reg} {kk : Byte} (h : Executes s (.rnd x kk)) :
    ∃ t, stepWith perStep s = .next t ∧ t.fault.cause = none ∧ t.getV x = s.rndIn &&& kk := by
  refine ⟨_, stepWith_executes h rfl, ?_, ?_⟩
  · rw [stepEnd_fault]
    exact h.1
  · rw [finishStep_eq]
    exact State.getV_setV_same (entryState s) x _

/-! ## The statements -/

/-- Settles O32: the fetch, the decoder, then the instruction with its causes from `exec_raise_cases`. -/
theorem faultingStepLeavesOnlyTheRecord : Obligations.FaultingStepLeavesOnlyTheRecord := by
  refine ⟨fun s h0 hp => ?_, fun s h0 hp hd => ?_, fun s t i hi h hf => ?_⟩
  · exact ⟨_, stepWith_fetchFault h0 (s.fetch_error hp), rfl, rfl, fetchFault_frame s _ _⟩
  · cases hw : decodeWord (wordAt s s.pc.toNat) with
    | ok i => exact absurd hw (hd i)
    | error e =>
      exact ⟨_, stepWith_unknown h0 (fetch_wordAt hp) hw, rfl, rfl, entryFault_fault s _ _, entryFault_frame s _ _⟩
  · obtain ⟨f, info, hu, rfl⟩ := hi.stepWith_raise h hf
    obtain ⟨h0, -, -⟩ := hi
    refine ⟨rfl, rfl, entryFault_frame s f info, ?_⟩
    rcases exec_raise_cases hu with e | ⟨hret, hsp, e⟩ | ⟨hcall, hsp, e⟩ | ⟨last, hl, e, hacc⟩
    · exact absurd ((congrArg FaultRecord.cause e).trans h0) hf
    · exact .inl ⟨hret, hsp, by rw [e, entryFault_fault]⟩
    · exact .inr (.inl ⟨hcall, hsp, by rw [e, entryFault_fault]⟩)
    · exact .inr (.inr ⟨last, hl, by rw [e, entryFault_fault], hacc⟩)

/-- Settles O36: the tick is the one of the step, since no instruction writes the port. -/
theorem timerEngineRunsAfterTheInstruction : Obligations.TimerEngineRunsAfterTheInstruction := by
  intro perStep s t u i hi hu h
  rw [stepWith_executes hi hu] at h
  cases h
  obtain ⟨-, -, -, htick, -⟩ := exec_untouched hu
  have htick : u.tickIn = s.tickIn := htick
  rw [stepEnd_fault, ← htick, State.nextInput_dt, State.nextInput_st]
  refine ⟨fun hok ht => ?_, fun hok hper ht => ?_, fun hf => ?_⟩
  · obtain ⟨hdt, hst⟩ := finishStep_timers_of_tick hok ht
    rw [hdt, hst]
    exact ⟨decTimer_toNat u.dt, decTimer_toNat u.st⟩
  · rw [hper]
    exact finishStep_timers_of_no_tick hok ht
  · obtain ⟨h0, -, -⟩ := hi
    obtain ⟨f, info, rfl⟩ := exec_raises (s := entryState s) h0 hu hf
    rw [finishStep_faulted hf]
    exact ⟨rfl, rfl⟩

/-- Settles O38. -/
theorem endedReportLooksAtTheNextWord : Obligations.EndedReportLooksAtTheNextWord := by
  intro s t h hok
  obtain ⟨-, ⟨-, rfl⟩ | ⟨-, -, rfl⟩ | ⟨i, u, -, -, rfl⟩⟩ := stepWith_inv h
  · cases hok
  · cases hok
  · rw [stepEnd_fault] at hok
    rw [← State.nextWordZero_iff_bytes, nextWordZero_stepEnd, State.nextInput_ended, finishStep_ended hok]

/-- Settles O57: a step of the driven state, its report, and `RND` reading the driven byte. -/
theorem stepTransactionReportsTheStep : Obligations.StepTransactionReportsTheStep := by
  refine ⟨fun s rnd tick => ⟨rfl, rfl, withInput_frame s rnd tick⟩, fun perStep s rnd tick h0 => ?_,
    fun perStep s rnd tick x kk hi => ?_⟩
  · obtain ⟨t, ht⟩ := stepWith_answers perStep (s := s.withInput rnd tick) h0
    refine ⟨t, ht, fun hok => ?_, fun f hf => ?_⟩
    · rw [transact_step_next ht, State.stepReport_ok hok]
    · rw [transact_step_next ht, State.stepReport_fault hf]
  · obtain ⟨t, ht, hok, hv⟩ := stepWith_rnd perStep (s := s.withInput rnd tick) hi
    exact ⟨t, by rw [transact_step_next ht, State.stepReport_ok hok], hv⟩

/-- Settles O30, at the default of TIMER_PER_STEP. -/
theorem stepRunsTheDecodedInstruction : Obligations.StepRunsTheDecodedInstruction := by
  intro s t i hi ht
  refine ⟨_, stepWith_executes (perStep := true) hi ht, stepEnd_frame true t, fun hf => ?_, fun hok => ?_⟩
  · rw [finishStep_faulted hf]
    exact ⟨rfl, rfl, rfl⟩
  · rw [State.nextInput_dt, State.nextInput_st, State.nextInput_ended, finishStep_dt hok, finishStep_st hok,
      finishStep_ended hok]
    exact ⟨decTimer_toNat t.dt, decTimer_toNat t.st, t.nextWordZero_iff_wordAt⟩

/-- Settles O31. -/
theorem unfaultedStepAlwaysAnswers : Obligations.UnfaultedStepAlwaysAnswers :=
  fun perStep _ h0 => stepWith_answers perStep h0

/-- Settles O34. -/
theorem faultedCoreRefusesSteps : Obligations.FaultedCoreRefusesSteps :=
  fun _ _ _ rnd tick h => ⟨stepWith_faulted h, transact_step_faulted rnd tick h⟩

end Sys2Proof.Machine
end

section
/-! SUPPORT. Control transfer in the statements of spec/41_flow.md: a pop, a push, the jumps and the skips, and the core that stands still on one instruction (R130, R141). -/

namespace Sys2Proof

/-- A word written out as a number decodes to the instruction it is the word of. -/
theorem decodeWord_ofNat {k : Nat} {i : Instr} (h : BitVec.ofNat 16 k = encodeWord i) :
    decodeWord (BitVec.ofNat 16 k) = .ok i :=
  h ▸ decodeWord_encodeWord i

end Sys2Proof

namespace Sys2Proof.Machine

/-! ## Frames -/

theorem FrameBut.mono {s t : State} {ps qs : List Part} (h : FrameBut s t ps) (hsub : ps ⊆ qs) : FrameBut s t qs :=
  fun p hp => h p fun hmem => hp (hsub hmem)

/-- The entry a pop reads keeps its value (R140). -/
theorem popPc_frame (s : State) : FrameBut s s.popPc [.sp, .pc] := by
  intro p hp
  cases p with
  | sp | pc => simp at hp
  | inputs => exact ⟨rfl, rfl, rfl⟩
  | _ => rfl

/-- The entry a push writes (R142). -/
theorem State.push_stack_top (s : State) (w : Word) {k : Fin 16} (h : s.sp.toNat = k.val) :
    (s.push w).stack[k] = w := by
  simp [stackIndex_of_lt h]

theorem State.push_stack_ne (s : State) (w : Word) {k j : Fin 16} (h : s.sp.toNat = k.val) (hne : j ≠ k) :
    (s.push w).stack[j] = s.stack[j] := by
  have hne : k.val ≠ j.val := fun e => hne (Fin.ext e.symm)
  simp [stackIndex_of_lt h, hne]

theorem push_frame (s : State) (w : Word) {k : Fin 16} (h : s.sp.toNat = k.val) :
    FrameBut s (s.push w) [.stack k, .sp] := by
  intro p hp
  cases p with
  | sp => simp at hp
  | stack j => exact s.push_stack_ne w h (by simpa using hp)
  | inputs => exact ⟨rfl, rfl, rfl⟩
  | _ => rfl

theorem skipIf_frame (s : State) (c : Bool) : FrameBut s (s.skipIf c) [.pc] := by
  rw [State.skipIf_eq]
  exact setPc_frame s _

/-! ## The instructions (R140 to R147) -/

theorem exec_ret_underflow {s : State} (h : s.sp = 0) : exec .ret s = .next (s.raise .stackUnderflow 0) :=
  congrArg Host.Outcome.next (if_pos h)

theorem exec_ret_pop {s : State} (h : s.sp ≠ 0) : exec .ret s = .next s.popPc :=
  congrArg Host.Outcome.next (if_neg h)

theorem exec_call_overflow {s : State} (nnn : Addr) (h : s.sp = 16) :
    exec (.call nnn) s = .next (s.raise .stackOverflow 16) :=
  congrArg Host.Outcome.next (if_pos h)

theorem exec_call_push {s : State} (nnn : Addr) (h : s.sp ≠ 16) :
    exec (.call nnn) s = .next ((s.push s.pc).setPc (zext16 nnn)) :=
  congrArg Host.Outcome.next (if_neg h)

/-- R147: the sum does not wrap and is not reduced to 12 bits. -/
theorem State.toNat_offsetTarget (s : State) (nnn : Addr) :
    (s.offsetTarget nnn).toNat = nnn.toNat + (s.getV 0).toNat := by
  have := nnn.isLt
  have := (s.getV 0).isLt
  simp only [State.offsetTarget, zext16, BitVec.toNat_add, BitVec.toNat_setWidth]
  omega

theorem State.skipIf_decide_pc (s : State) (c : Prop) [Decidable c] :
    (s.skipIf (decide c)).pc = if c then s.pc + 2 else s.pc := by
  simp [State.skipIf_eq]

theorem State.skipIf_decide_not_pc (s : State) (c : Prop) [Decidable c] :
    (s.skipIf (decide ¬ c)).pc = if c then s.pc else s.pc + 2 := by
  rw [State.skipIf_decide_pc, ite_not]

/-! ## The core standing still -/

/-- The induction over a run, once: what each step carries from `k` to `k + 1` steps, a run carries to any number. -/
theorem run_of_step {P : Nat → State → Prop} (hstep : ∀ k s, P k s → ∃ t, step s = .next t ∧ P (k + 1) t) :
    ∀ (n k : Nat) (s : State), P k s → ∃ t, Host.Core.run Sys2Proof.core n s = .next t ∧ P (k + n) t := by
  intro n
  induction n with
  | zero => exact fun k s h => ⟨s, rfl, h⟩
  | succ n ih =>
    intro k s h
    obtain ⟨t, hst, ht⟩ := hstep k s h
    obtain ⟨u, hu, hP⟩ := ih (k + 1) t ht
    exact ⟨u, by rw [run_succ hst, hu], by rwa [Nat.add_right_comm] at hP⟩

/-- What is coming is read from the fault record, pc and memory alone. -/
theorem Executes.congr {s t : State} {i : Instr} (h : Executes s i) (hf : t.fault = s.fault) (hpc : t.pc = s.pc)
    (hm : t.mem = s.mem) : Executes t i := by
  unfold Executes wordAt at h ⊢
  rwa [hf, hpc, hm]

/-- The state `t` after `k` steps from `s` that did nothing but run the timers, with `i` still to come. -/
structure StoodStill (s : State) (i : Instr) (k : Nat) (t : State) : Prop where
  dt : t.dt.toNat = s.dt.toNat - k
  st : t.st.toNat = s.st.toNat - k
  executes : Executes t i
  frame : FrameBut s t [.dt, .st, .draw, .ended, .inputs]

theorem StoodStill.refl {s : State} {i : Instr} (h : Executes s i) : StoodStill s i 0 s where
  dt := rfl
  st := rfl
  executes := h
  frame := FrameBut.refl s _

/-- One step more, if the instruction puts pc back and does nothing else. -/
theorem StoodStill.succ {s t : State} {i : Instr} {k : Nat} (h : StoodStill s i k t)
    (he : exec i (entryState t) = .next ((entryState t).setPc t.pc)) :
    ∃ u, step t = .next u ∧ StoodStill s i (k + 1) u := by
  have hok : ((entryState t).setPc t.pc).fault.cause = none := h.executes.1
  refine ⟨_, stepWith_executes (perStep := true) h.executes he, ?_, ?_, ?_, ?_⟩
  · rw [State.nextInput_dt, finishStep_dt hok, decTimer_toNat, Nat.sub_add_eq, ← h.dt]
    rfl
  · rw [State.nextInput_st, finishStep_st hok, decTimer_toNat, Nat.sub_add_eq, ← h.st]
    rfl
  · rw [finishStep_eq]
    exact h.executes.congr rfl rfl rfl
  · have hentry : FrameBut t ((entryState t).setPc t.pc) [.draw] := by
      intro p hp
      cases p with
      | draw => simp at hp
      | inputs => exact ⟨rfl, rfl, rfl⟩
      | _ => rfl
    exact h.frame.trans ((hentry.mono (by simp)).trans ((stepEnd_frame true _).mono (by simp)))

/-! ## The statements -/

/-- Settles O1. -/
theorem retPopsTheReturnAddress : Obligations.RetPopsTheReturnAddress := by
  refine ⟨rfl, fun s h => exec_ret_underflow h, fun s k h => ?_⟩
  have hsp : s.sp ≠ 0 := fun e => by simp [e] at h
  obtain ⟨hpc, hk⟩ := s.popPc_at k h
  exact ⟨_, exec_ret_pop hsp, hk, hpc, popPc_frame s⟩

/-- Settles O2. -/
theorem callPushesThePc : Obligations.CallPushesThePc := by
  refine ⟨fun nnn => decodeWord_ofNat (ofNat_wordA 0x2 nnn rfl), fun s nnn h => exec_call_overflow nnn h,
    fun s nnn k h => ?_⟩
  have hsp : s.sp ≠ 16 := fun e => by simp [e] at h; omega
  obtain ⟨-, hk⟩ := s.push_at s.pc k h
  exact ⟨_, exec_call_push nnn hsp, s.push_stack_top s.pc h, hk, toNat_zext16_addr nnn,
    ((push_frame s s.pc h).mono (by simp)).trans ((setPc_frame _ _).mono (by simp))⟩

/-- Settles O3. -/
theorem jumpsSetThePc : Obligations.JumpsSetThePc :=
  ⟨fun nnn => decodeWord_ofNat (ofNat_wordA 0x1 nnn rfl), fun nnn => decodeWord_ofNat (ofNat_wordA 0xB nnn rfl),
    fun s nnn => ⟨_, rfl, toNat_zext16_addr nnn, setPc_frame s _⟩,
    fun s nnn => ⟨_, rfl, s.toNat_offsetTarget nnn, setPc_frame s _⟩⟩

/-- Settles O4: the words by their format, then each skip on its own condition. -/
theorem skipsTestEquality : Obligations.SkipsTestEquality := by
  refine ⟨fun x kk => ⟨decodeWord_ofNat (ofNat_wordXK 0x3 x kk ?_), decodeWord_ofNat (ofNat_wordXK 0x4 x kk ?_)⟩,
    fun x y n => ⟨decodeWord_ofNat (ofNat_wordXYN 0x5 x y n ?_), decodeWord_ofNat (ofNat_wordXYN 0x9 x y n ?_)⟩,
    fun s x kk => ⟨_, rfl, s.skipIf_decide_pc _, skipIf_frame s _⟩,
    fun s x kk => ⟨_, rfl, s.skipIf_decide_not_pc _, skipIf_frame s _⟩,
    fun s x y n => ⟨_, rfl, s.skipIf_decide_pc _, skipIf_frame s _⟩,
    fun s x y n => ⟨_, rfl, s.skipIf_decide_not_pc _, skipIf_frame s _⟩⟩
  all_goals simp only [BitVec.reduceToNat]; omega

/-- Settles O5, from what `CALL` leaves (O2) and what `RET` does with it (O1). -/
theorem retUndoesCall : Obligations.RetUndoesCall := by
  intro s t nnn k p hk ht
  obtain ⟨-, -, hcall⟩ := callPushesThePc
  obtain ⟨-, -, hret⟩ := retPopsTheReturnAddress
  obtain ⟨t', ht', htop, hsp, -, hframe⟩ := hcall s nnn k hk
  obtain rfl : t' = t := Host.Outcome.next.inj (ht'.symm.trans ht)
  obtain ⟨u, hu, husp, hupc, hframe'⟩ := hret (t'.setPc p) k hsp
  have hpc : u.pc = s.pc := hupc.trans htop
  have hsp : u.sp = s.sp := BitVec.eq_of_toNat_eq (husp.trans hk.symm)
  refine ⟨u, hu, hpc, hsp, fun q hq => ?_⟩
  have hall : FrameBut s u [.stack k, .sp, .pc] :=
    hframe.trans (((setPc_frame t' p).mono (by simp)).trans (hframe'.mono (by simp)))
  cases q with
  | sp => exact hsp
  | pc => exact hpc
  | stack j => exact hall _ (by simpa using hq)
  | _ => exact hall _ (by simp)

/-- Settles O41: a jump to its own address puts pc back, and pc is in the frame of the steps before. -/
theorem selfJumpCountsTheTimersDown : Obligations.SelfJumpCountsTheTimersDown := by
  intro n s nnn hi hself
  have hstep : ∀ k t, StoodStill s (.jp nnn) k t → ∃ u, step t = .next u ∧ StoodStill s (.jp nnn) (k + 1) u := by
    intro k t h
    have hpc : t.pc = s.pc := h.frame .pc (by simp)
    have htarget : zext16 nnn = t.pc := BitVec.eq_of_toNat_eq (by rw [toNat_zext16_addr, hself, hpc])
    exact h.succ (congrArg (fun w => Host.Outcome.next ((entryState t).setPc w)) htarget)
  obtain ⟨t, hrun, ht⟩ := run_of_step hstep n 0 s (.refl hi)
  rw [Nat.zero_add] at ht
  exact ⟨t, hrun, ht.dt, ht.st, ht.executes, ht.frame⟩

end Sys2Proof.Machine
end

section
/-! SUPPORT. Registers and flags in the statements of spec/42_alu.md: the words 8XYN and OXKK, what a flag-writing instruction leaves in Vx and VF (R160), and its results and flags as numbers (R162 to R172). -/

namespace Sys2Proof

/-! ## The words -/

/-- A word 8XYN written out, `k` being its two outer digits (R93, R96). -/
theorem decodeWord_8XYN {k : Nat} {i : Instr} (x y : Reg) (n : Nibble) (hk : k = 0x8000 + n.toNat)
    (hi : encodeWord i = wordXYN 0x8 x y n) : decodeWord (BitVec.ofNat 16 (k + 256 * x.val + 16 * y.val)) = .ok i := by
  refine decodeWord_ofNat (hi ▸ ofNat_wordXYN 0x8 x y n ?_)
  simp only [BitVec.reduceToNat]; omega

/-- A word of format XK written out, `k` being its first digit (R93, R94). -/
theorem decodeWord_XKK {k : Nat} {i : Instr} (op : Nibble) (x : Reg) (kk : Byte) (hk : k = op.toNat * 4096)
    (hi : encodeWord i = wordXK op x kk) : decodeWord (BitVec.ofNat 16 (k + 256 * x.val + kk.toNat)) = .ok i := by
  refine decodeWord_ofNat (hi ▸ ofNat_wordXK op x kk ?_)
  omega

end Sys2Proof

namespace Sys2Proof.Machine

/-! ## Vx and VF after a flag-writing instruction (R160) -/

/-- The result goes to Vx last, so it stays when x is 0xF. -/
@[simp] theorem State.getV_setFlagThen_same (s : State) (flag : Bool) (x : Reg) (b : Byte) :
    (s.setFlagThen flag x b).getV x = b :=
  State.getV_setV_same _ x b

theorem State.getV_setFlagThen_flag (s : State) (flag : Bool) {x : Reg} (b : Byte) (h : x ≠ 15) :
    (s.setFlagThen flag x b).getV 15 = flagByte flag := by
  rw [State.getV_setFlagThen, if_neg h.symm, if_pos rfl]

/-! ## The results as numbers -/

/-- R167: nine bits hold the sum of two bytes. -/
theorem toNat_sum9 (a b : Byte) : (sum9 a b).toNat = a.toNat + b.toNat := by
  have := a.isLt
  have := b.isLt
  simp only [sum9, BitVec.toNat_add, BitVec.toNat_setWidth]
  omega

theorem toNat_sum9_low (a b : Byte) : ((sum9 a b).setWidth 8).toNat = (a.toNat + b.toNat) % 256 := by
  rw [BitVec.toNat_setWidth, toNat_sum9]

/-- R168, R170: the difference modulo 256. -/
theorem toNat_byte_sub (a b : Byte) : (a - b).toNat = (a.toNat + 256 - b.toNat) % 256 := by
  have := b.isLt
  rw [BitVec.toNat_sub]
  omega

theorem toNat_byte_shiftRight_one (a : Byte) : (a >>> 1).toNat = a.toNat / 2 := by
  rw [BitVec.toNat_ushiftRight, Nat.shiftRight_one]

theorem toNat_byte_shiftLeft_one (a : Byte) : (a <<< 1).toNat = 2 * a.toNat % 256 := by
  rw [BitVec.toNat_shiftLeft, Nat.shiftLeft_eq, Nat.mul_comm]

/-! ## The flags -/

/-- A flag that decides a condition is 1 exactly when the condition holds. -/
theorem flagByte_decide (c : Prop) [Decidable c] : flagByte (decide c) = if c then 1 else 0 := by
  by_cases h : c <;> simp [h]

theorem flagByte_carryOut (a b : Byte) : flagByte (carryOut a b) = if a.toNat + b.toNat > 255 then 1 else 0 := by
  rw [carryOut, toNat_sum9, flagByte_decide]

theorem flagByte_noBorrow (a b : Byte) : flagByte (noBorrow a b) = if a.toNat > b.toNat then 1 else 0 :=
  flagByte_decide _

/-- The flag of a bit is that binary digit of the number. -/
theorem toNat_flagByte_getLsbD (a : Byte) (k : Nat) : (flagByte (a.getLsbD k)).toNat = a.toNat / 2 ^ k % 2 := by
  rw [← BitVec.testBit_toNat, Nat.testBit_eq_decide_div_mod_eq, flagByte_decide]
  rcases Nat.mod_two_eq_zero_or_one (a.toNat / 2 ^ k) with h | h <;> simp [h]

theorem toNat_flagByte_shiftedOutLow (a : Byte) : (flagByte (shiftedOutLow a)).toNat = a.toNat % 2 := by
  rw [shiftedOutLow, toNat_flagByte_getLsbD, Nat.pow_zero, Nat.div_one]

theorem toNat_flagByte_shiftedOutHigh (a : Byte) : (flagByte (shiftedOutHigh a)).toNat = a.toNat / 128 := by
  have := a.isLt
  rw [shiftedOutHigh, toNat_flagByte_getLsbD]
  omega

/-! ## Subtraction (R168, R170) -/

/-- What `SUB` and `SUBN` leave, which differ in the order of the operands alone. -/
theorem setFlagThen_sub (s : State) (x : Reg) (a b : Byte) :
    ((s.setFlagThen (noBorrow a b) x (a - b)).getV x).toNat = (a.toNat + 256 - b.toNat) % 256 ∧
    (x ≠ 15 → (s.setFlagThen (noBorrow a b) x (a - b)).getV 15 = if a.toNat > b.toNat then 1 else 0) ∧
    FrameBut s (s.setFlagThen (noBorrow a b) x (a - b)) [.v x, .v 15] :=
  ⟨by rw [State.getV_setFlagThen_same, toNat_byte_sub],
    fun hx => by rw [State.getV_setFlagThen_flag _ _ _ hx, flagByte_noBorrow], setFlagThen_frame s _ x _⟩

/-! ## The statements -/

/-- Settles O6. -/
theorem registerLoadsAndAddByte : Obligations.RegisterLoadsAndAddByte :=
  ⟨fun x kk => ⟨decodeWord_XKK 0x6 x kk rfl rfl, decodeWord_XKK 0x7 x kk rfl rfl⟩,
    fun x y => decodeWord_8XYN x y 0x0 rfl rfl,
    fun s x kk => ⟨_, rfl, s.getV_setV_same x kk, setV_frame s x _⟩,
    fun s x kk => ⟨_, rfl, by rw [State.getV_setV_same, BitVec.toNat_add], setV_frame s x _⟩,
    fun s x y => ⟨_, rfl, s.getV_setV_same x _, setV_frame s x _⟩⟩

/-- Settles O7. -/
theorem logicIsBitwiseWithoutFlag : Obligations.LogicIsBitwiseWithoutFlag :=
  ⟨fun x y => ⟨decodeWord_8XYN x y 0x1 rfl rfl, decodeWord_8XYN x y 0x2 rfl rfl, decodeWord_8XYN x y 0x3 rfl rfl⟩,
    fun s x y => ⟨_, rfl, setV_frame s x _, fun k => by rw [State.getV_setV_same, BitVec.getLsbD_or]⟩,
    fun s x y => ⟨_, rfl, setV_frame s x _, fun k => by rw [State.getV_setV_same, BitVec.getLsbD_and]⟩,
    fun s x y => ⟨_, rfl, setV_frame s x _, fun k => by rw [State.getV_setV_same, BitVec.getLsbD_xor]⟩⟩

/-- Settles O8. -/
theorem addSetsCarryThenResult : Obligations.AddSetsCarryThenResult :=
  ⟨fun x y => decodeWord_8XYN x y 0x4 rfl rfl,
    fun s x y => ⟨_, rfl, by rw [State.getV_setFlagThen_same, toNat_sum9_low],
      fun hx => by rw [State.getV_setFlagThen_flag _ _ _ hx, flagByte_carryOut], setFlagThen_frame s _ x _⟩⟩

/-- Settles O9. -/
theorem subSetsStrictlyGreaterThenResult : Obligations.SubSetsStrictlyGreaterThenResult :=
  ⟨fun x y => decodeWord_8XYN x y 0x5 rfl rfl,
    fun s x y => ⟨_, rfl, setFlagThen_sub s x (s.getV x) (s.getV y)⟩⟩

/-- Settles O10. -/
theorem subnSetsStrictlyGreaterThenResult : Obligations.SubnSetsStrictlyGreaterThenResult :=
  ⟨fun x y => decodeWord_8XYN x y 0x7 rfl rfl,
    fun s x y => ⟨_, rfl, setFlagThen_sub s x (s.getV y) (s.getV x)⟩⟩

/-- Settles O11: neither meaning reads Vy. -/
theorem shiftsByOneInPlace : Obligations.ShiftsByOneInPlace :=
  ⟨fun x y => ⟨decodeWord_8XYN x y 0x6 rfl rfl, decodeWord_8XYN x y 0xE rfl rfl⟩,
    fun s x _ => ⟨_, rfl, by rw [State.getV_setFlagThen_same, toNat_byte_shiftRight_one],
      fun hx => by rw [State.getV_setFlagThen_flag _ _ _ hx, toNat_flagByte_shiftedOutLow],
      setFlagThen_frame s _ x _⟩,
    fun s x _ => ⟨_, rfl, by rw [State.getV_setFlagThen_same, toNat_byte_shiftLeft_one],
      fun hx => by rw [State.getV_setFlagThen_flag _ _ _ hx, toNat_flagByte_shiftedOutHigh],
      setFlagThen_frame s _ x _⟩⟩

/-- Settles O12: under the mask 0xFF a byte is reached by putting it on the port. -/
theorem rndMasksTheFreeByte : Obligations.RndMasksTheFreeByte := by
  refine ⟨fun x kk => decodeWord_XKK 0xC x kk rfl rfl,
    fun s x kk => ⟨_, rfl, s.getV_setV_same x _, setV_frame s x _⟩, fun s x b => ⟨b, _, rfl, ?_⟩, fun s t x h => ?_⟩
  · exact (State.getV_setV_same _ x _).trans BitVec.and_allOnes
  · obtain rfl : s.setV x (s.rndIn &&& 0) = t := Host.Outcome.next.inj h
    exact (s.getV_setV_same x _).trans BitVec.and_zero

end Sys2Proof.Machine
end

section
/-! SUPPORT. Index register, loads and stores in the statements of spec/43_index_memory.md: the words FXKK, I as a number (R190 to R192), the digits and the register block in memory (R193, R194), the registers after a block load (R195). -/

namespace Sys2Proof

/-- A word FXKK written out, `k` being its three fixed digits (R93, R98). -/
theorem decodeWord_FXKK {k : Nat} {i : Instr} (x : Reg) (kk : Byte) (hk : k = 0xF000 + kk.toNat)
    (hi : encodeWord i = wordXK 0xF x kk) : decodeWord (BitVec.ofNat 16 (k + 256 * x.val)) = .ok i := by
  rw [hk, Nat.add_right_comm]
  exact decodeWord_XKK 0xF x kk rfl hi

end Sys2Proof

namespace Sys2Proof.Machine

/-- Every instruction answers a next state, so the only one it can answer is the one it answers. -/
theorem exec_eq_of_forall {i : Instr} {s u : State} (h : ∀ t, exec i s = .next t → t = u) : exec i s = .next u := by
  obtain ⟨t, ht⟩ := exec_next i s
  rw [ht, h t ht]

/-! ## I as a number (R191, R192) -/

theorem toNat_add_zext16_byte (w : Word) (b : Byte) : (w + zext16 b).toNat = (w.toNat + b.toNat) % 65536 := by
  have := b.isLt
  simp only [zext16, BitVec.toNat_add, BitVec.toNat_setWidth]
  omega

/-- R192: five times a byte does not wrap. -/
theorem toNat_glyphAddr (b : Byte) : (glyphAddr b).toNat = 5 * b.toNat := by
  have := b.isLt
  simp only [glyphAddr, zext16, Config.fontBase, Config.fontStride, BitVec.toNat_add, BitVec.toNat_mul,
    BitVec.toNat_setWidth, BitVec.reduceToNat]
  omega

/-! ## Stores (R193, R194) -/

/-- R193: the digits as numbers, each small enough for a byte. -/
theorem toNat_bcdDigits (b : Byte) :
    (bcdDigits b).map BitVec.toNat = [b.toNat / 100, b.toNat / 10 % 10, b.toNat % 10] := by
  have := b.isLt
  simp only [bcdDigits, List.map_cons, List.map_nil, BitVec.toNat_ofNat, List.cons.injEq, and_true]
  omega

/-- R193: a store of the digits inside memory. -/
theorem exec_ldB_ok {s : State} {x : Reg} (h : s.i.toNat + 2 ≤ 0xFFF) :
    exec (.ldB x) s = .next (s.setMem (s.mem.writeBytes s.i.toNat (bcdDigits (s.getV x)))) :=
  congrArg Host.Outcome.next (s.storeOrFault_ok (.inr (show s.i.toNat + 3 ≤ 0x1000 by omega)))

/-- The digit of index `k` is what memory holds at I + k. -/
theorem toNat_read_bcdDigits (m : Memory) (a : Nat) (b : Byte) {k : Nat} (hk : k < 3) :
    ((m.writeBytes a (bcdDigits b)).read (a + k)).toNat = [b.toNat / 100, b.toNat / 10 % 10, b.toNat % 10][k] := by
  rw [Memory.read_writeBytes_in m a hk]
  simp only [← toNat_bcdDigits]
  exact (List.getElem_map BitVec.toNat).symm

/-- R194: each stored register is what memory holds at its place. -/
theorem read_block (s : State) (m : Memory) (a : Nat) {x k : Reg} (h : k ≤ x) :
    (m.writeBytes a (s.block x)).read (a + k.val) = s.getV k := by
  have hk : k.val < (s.block x).length := s.length_block x ▸ Nat.lt_succ_of_le h
  rw [Memory.read_writeBytes_in m a hk, State.getElem_block]

/-! ## The block load (R195) -/

theorem exec_ldVxMem_ok {s : State} {x : Reg} (h : s.i.toNat + x.val ≤ 0xFFF) :
    exec (.ldVxMem x) s = .next (s.setBlock 0 (s.mem.readBytes s.i.toNat (x.val + 1))) :=
  congrArg Host.Outcome.next (s.loadOrFault_ok _ (.inr (show s.i.toNat + (x.val + 1) ≤ 0x1000 by omega)))

/-- R195: V0 to Vx hold the bytes read, and the registers above x keep theirs. -/
theorem getV_setBlock_readBytes (s : State) (m : Memory) (a : Nat) (x k : Reg) :
    (s.setBlock 0 (m.readBytes a (x.val + 1))).getV k = if k ≤ x then m.read (a + k.val) else s.getV k := by
  have hx := x.isLt
  have hiff : (0 ≤ k.val ∧ k.val < 0 + (m.readBytes a (x.val + 1)).length) ↔ k ≤ x := by
    rw [Memory.length_readBytes, Fin.le_def]; omega
  rw [State.getV_setBlock _ _ _ _ (by rw [Memory.length_readBytes]; omega)]
  simp only [hiff, Memory.getElem_readBytes, Nat.sub_zero, dite_eq_ite]

/-- A block load changes the registers it loads and nothing else. -/
theorem setBlock_readBytes_frame (s : State) (m : Memory) (a : Nat) (x : Reg) :
    Frame s (s.setBlock 0 (m.readBytes a (x.val + 1))) (fun p => ∃ k : Reg, k ≤ x ∧ p = .v k) := by
  intro p hp
  cases p with
  | v r => exact (getV_setBlock_readBytes s m a x r).trans (if_neg fun hr => hp ⟨r, hr, rfl⟩)
  | inputs => rw [State.setBlock_eq]; exact ⟨rfl, rfl, rfl⟩
  | _ => rw [State.setBlock_eq]; rfl

/-! ## The statements -/

/-- Settles O13. -/
theorem indexRegisterInstructions : Obligations.IndexRegisterInstructions :=
  ⟨fun nnn => decodeWord_ofNat (ofNat_wordA 0xA nnn rfl),
    fun x => ⟨decodeWord_FXKK x 0x1E rfl rfl, decodeWord_FXKK x 0x29 rfl rfl⟩,
    fun s nnn => ⟨_, rfl, toNat_zext16_addr nnn, setI_frame s _⟩,
    fun s x => ⟨_, rfl, toNat_add_zext16_byte s.i (s.getV x), setI_frame s _⟩,
    fun s x => ⟨_, rfl, toNat_glyphAddr (s.getV x), setI_frame s _⟩⟩

/-- Settles O14. -/
theorem bcdStoresThreeDigits : Obligations.BcdStoresThreeDigits := by
  refine ⟨fun x => decodeWord_FXKK x 0x33 rfl rfl, fun s x h => ?_,
    fun _ x h => exec_eq_of_forall fun _ ht => exec_outOfRange ht h (.inr (.inl ⟨x, rfl, rfl⟩))⟩
  have hdigit := fun k => toNat_read_bcdDigits s.mem s.i.toNat (s.getV x) (k := k)
  refine ⟨_, exec_ldB_ok h, hdigit 0 (by decide), hdigit 1 (by decide), hdigit 2 (by decide), fun p hp => ?_⟩
  exact setMem_frame s s.i.toNat _ p fun ⟨k, hk, e⟩ => hp ⟨k, Nat.le_of_lt_succ hk, e⟩

/-- Settles O15. -/
theorem blockStoreFromI : Obligations.BlockStoreFromI := by
  refine ⟨fun x => decodeWord_FXKK x 0x55 rfl rfl, fun s x h => ?_,
    fun _ x h => exec_eq_of_forall fun _ ht => exec_outOfRange ht h (.inr (.inr (.inl ⟨x, rfl, rfl⟩)))⟩
  refine ⟨_, exec_ldMemVx_ok h, fun k hk => read_block s s.mem s.i.toNat hk, fun p hp => ?_⟩
  refine setMem_frame s s.i.toNat _ p fun ⟨k, hk, e⟩ => hp ?_
  rw [s.length_block] at hk
  exact ⟨⟨k, by omega⟩, Nat.le_of_lt_succ hk, e⟩

/-- Settles O16. -/
theorem blockLoadFromI : Obligations.BlockLoadFromI :=
  ⟨fun x => decodeWord_FXKK x 0x65 rfl rfl,
    fun s x h => ⟨_, exec_ldVxMem_ok h, fun k hk => (getV_setBlock_readBytes s _ _ x k).trans (if_pos hk),
      setBlock_readBytes_frame s _ _ x⟩,
    fun _ x h => exec_eq_of_forall fun _ ht => exec_outOfRange ht h (.inr (.inr (.inr ⟨x, rfl, rfl⟩)))⟩

/-- Settles O17: the load reads, at the I the store left, the bytes the store put there. -/
theorem blockLoadRestoresBlockStore : Obligations.BlockLoadRestoresBlockStore := by
  intro s _ x _ h ht
  obtain rfl := Host.Outcome.next.inj ((exec_ldMemVx_ok h).symm.trans ht)
  refine ⟨_, exec_ldVxMem_ok h, fun k => ?_⟩
  rw [getV_setBlock_readBytes]
  exact ite_congr rfl (fun hk => read_block s s.mem s.i.toNat hk) fun _ => rfl

end Sys2Proof.Machine
end

section
/-! SUPPORT. The framebuffer in the statements of spec/44_display.md: what CLS and DRW leave (R210, R211), two draws of one sprite (E4), and the DRAW flag over a step (R213). -/

namespace Sys2Proof.Machine

/-! ## What a draw leaves (R211) -/

/-- The sprite of the `n` bytes at I drawn at (x0, y0). -/
def State.drawn (s : State) (x0 y0 : Byte) (n : Nat) : State := s.drawAt x0 y0 (s.mem.readBytes s.base n)

/-- `DRW` with its sprite inside memory, or with no sprite byte at all (R66). -/
theorem exec_drw_ok {s : State} {x y : Reg} {n : Nibble} (h : n = 0 ∨ s.i.toNat + n.toNat - 1 ≤ 0xFFF) :
    exec (.drw x y n) s = .next (s.drawn (s.getV x) (s.getV y) n.toNat) := by
  have hrange : n.toNat = 0 ∨ s.i.toNat + n.toNat ≤ 0x1000 := by
    rcases h with rfl | h
    · exact .inl rfl
    · omega
  exact congrArg Host.Outcome.next (s.loadOrFault_ok _ hrange)

theorem exec_drw_outOfRange {s : State} {x y : Reg} {n : Nibble} (h0 : n ≠ 0) (h : 0xFFF < s.i.toNat + n.toNat - 1) :
    exec (.drw x y n) s =
      .next (s.raise .memoryOutOfRange (BitVec.ofNat 16 (min (s.i.toNat + n.toNat - 1) 0xFFFF))) :=
  exec_eq_of_forall fun _ ht => exec_outOfRange ht h (.inl ⟨x, y, n, rfl, h0, rfl⟩)

/-- A drawn cell differs exactly when the sprite has a set bit on it. -/
theorem drawn_get_ne_iff (s : State) (x0 y0 : Byte) {n : Nat} (hn : n ≤ 32) (row : Fin 32) (col : Fin 64) :
    (s.drawn x0 y0 n).fb.get row col ≠ s.fb.get row col ↔ SpriteCovers s x0 y0 n row col := by
  obtain ⟨hflip, hkeep⟩ := drawRows_get (x0 := x0.toNat) y0.toNat (s.fb, false) row col
    ((s.mem.length_readBytes s.base n).trans_le hn)
  rw [cellHit_readBytes] at hflip hkeep
  refine ⟨fun hne => by_contra fun hc => hne (hkeep hc), fun hc => ?_⟩
  exact (hflip hc).trans_ne (Bool.not_ne_self _)

/-- VF after a draw is the flag of the collision. -/
theorem drawn_getV_flag (s : State) (x0 y0 : Byte) (n : Nat) :
    (s.drawn x0 y0 n).getV 15 = flagByte (drawSprite s.fb x0 y0 (s.mem.readBytes s.base n)).2 :=
  State.getV_setV_same (s.setFb _) 15 _

/-- The collision flag is raised exactly when a covered cell was set. -/
theorem drawSprite_hit_iff (s : State) (x0 y0 : Byte) {n : Nat} (hn : n ≤ 32) :
    (drawSprite s.fb x0 y0 (s.mem.readBytes s.base n)).2 = true ↔
      ∃ row col, SpriteCovers s x0 y0 n row col ∧ s.fb.get row col = true := by
  rw [drawSprite, drawRows_hit _ _ ((s.mem.length_readBytes s.base n).trans_le hn)]
  simp only [Bool.false_eq_true, false_or, cellHit_readBytes]

theorem flagByte_eq_one_iff (c : Bool) : flagByte c = 1 ↔ c = true := by
  cases c <;> decide

theorem drawn_getV_flag_eq_one_iff (s : State) (x0 y0 : Byte) {n : Nat} (hn : n ≤ 32) :
    (s.drawn x0 y0 n).getV 15 = 1 ↔ ∃ row col, SpriteCovers s x0 y0 n row col ∧ s.fb.get row col = true := by
  rw [drawn_getV_flag, flagByte_eq_one_iff, drawSprite_hit_iff s x0 y0 hn]

theorem drawn_getV_flag_eq_zero (s : State) (x0 y0 : Byte) {n : Nat} (hn : n ≤ 32)
    (h : ¬ ∃ row col, SpriteCovers s x0 y0 n row col ∧ s.fb.get row col = true) : (s.drawn x0 y0 n).getV 15 = 0 := by
  rw [← drawSprite_hit_iff s x0 y0 hn, Bool.not_eq_true] at h
  rw [drawn_getV_flag, h, flagByte_false]

/-! ## Frames -/

theorem setFb_frame (s : State) (f : Framebuffer) : Frame s (s.setFb f) (fun p => ∃ row col, p = .fb row col) := by
  intro p hp
  cases p with
  | fb row col => exact absurd ⟨row, col, rfl⟩ hp
  | inputs => exact ⟨rfl, rfl, rfl⟩
  | _ => rfl

theorem drawn_frame (s : State) (x0 y0 : Byte) (n : Nat) :
    Frame s (s.drawn x0 y0 n) (fun p => p = .v 15 ∨ p = .draw ∨ ∃ row col, p = .fb row col) := by
  intro p hp
  cases p with
  | v r => exact State.getV_setV_ne (s.setFb _) _ fun e => hp (.inl (congrArg Part.v e))
  | draw => exact absurd (.inr (.inl rfl)) hp
  | fb row col => exact absurd (.inr (.inr ⟨row, col, rfl⟩)) hp
  | inputs => exact ⟨rfl, rfl, rfl⟩
  | _ => rfl

/-! ## Two draws of one sprite (E4) -/

/-- A draw leaves I and MEM alone, so the same sprite covers the same cells after it. -/
theorem spriteCovers_drawn (s : State) (x0 y0 : Byte) (m : Nat) (x1 y1 : Byte) (n : Nat) (row : Fin 32) (col : Fin 64) :
    SpriteCovers (s.drawn x0 y0 m) x1 y1 n row col ↔ SpriteCovers s x1 y1 n row col :=
  Iff.rfl

/-- A cell that flips twice, or never, is what it was. -/
theorem drawn_drawn_get (s : State) (x0 y0 : Byte) {n : Nat} (hn : n ≤ 32) (row : Fin 32) (col : Fin 64) :
    ((s.drawn x0 y0 n).drawn x0 y0 n).fb.get row col = s.fb.get row col := by
  have hfirst := drawn_get_ne_iff s x0 y0 hn row col
  have hsecond := drawn_get_ne_iff (s.drawn x0 y0 n) x0 y0 hn row col
  rw [spriteCovers_drawn] at hsecond
  by_cases hc : SpriteCovers s x0 y0 n row col
  · rw [Bool.eq_not_of_ne (hsecond.2 hc), Bool.eq_not_of_ne (hfirst.2 hc), Bool.not_not]
  · rw [not_ne_iff.1 (hsecond.not.2 hc), not_ne_iff.1 (hfirst.not.2 hc)]

/-- On a clear framebuffer the set cells after a draw are the covered ones. -/
theorem drawn_get_eq_true_iff_of_clear {s : State} (h : ∀ row col, s.fb.get row col = false) (x0 y0 : Byte) {n : Nat}
    (hn : n ≤ 32) (row : Fin 32) (col : Fin 64) :
    (s.drawn x0 y0 n).fb.get row col = true ↔ SpriteCovers s x0 y0 n row col := by
  rw [← drawn_get_ne_iff s x0 y0 hn, h, Bool.ne_false_iff]

/-- Every bit of the sprite falls on a cell, since both axes wrap (R76). -/
theorem exists_spriteCovers_iff (s : State) (x0 y0 : Byte) (n : Nat) :
    (∃ row col, SpriteCovers s x0 y0 n row col) ↔
      ∃ r c, r < n ∧ c < 8 ∧ (s.mem.read (s.i.toNat + r)).getLsbD c = true := by
  constructor
  · rintro ⟨_, _, r, c, hr, -, -, -, hbit⟩
    exact ⟨r, 7 - c, hr, by omega, hbit⟩
  · rintro ⟨r, c, hr, hc, hbit⟩
    exact ⟨Fin.ofNat 32 (y0.toNat + r), Fin.ofNat 64 (x0.toNat + (7 - c)), r, 7 - c, hr, by omega, rfl, rfl,
      by rwa [show 7 - (7 - c) = c by omega]⟩

/-! ## The DRAW flag over a step (R213) -/

theorem exec_drw_draw {s u : State} {x y : Reg} {n : Nibble} (h : exec (.drw x y n) s = .next u)
    (hok : u.fault.cause = none) : u.draw = true := by
  by_cases hr : n = 0 ∨ s.i.toNat + n.toNat - 1 ≤ 0xFFF
  · obtain rfl := Host.Outcome.next.inj ((exec_drw_ok hr).symm.trans h)
    rfl
  · obtain ⟨h0, hlt⟩ := not_or.1 hr
    obtain rfl := Host.Outcome.next.inj ((exec_drw_outOfRange h0 (Nat.lt_of_not_le hlt)).symm.trans h)
    cases hok

/-- On a core with no fault and DRAW cleared, an instruction sets DRAW exactly when it is a `DRW` that does not fault. -/
theorem exec_draw_iff {i : Instr} {s u : State} (h : exec i s = .next u) (h0 : s.fault.cause = none)
    (hd : s.draw = false) : u.draw = true ↔ u.fault.cause = none ∧ ∃ x y n, i = .drw x y n := by
  refine ⟨fun hu => ⟨by_contra fun hf => ?_, ?_⟩, ?_⟩
  · obtain ⟨f, info, rfl⟩ := exec_raises h0 h hf
    exact Bool.false_ne_true (hd.symm.trans hu)
  · exact (exec_effect h).draw_writers fun e => Bool.false_ne_true (hd.symm.trans (e.symm.trans hu))
  · rintro ⟨hok, x, y, n, rfl⟩
    exact exec_drw_draw h hok

/-! ## The statements -/

/-- Settles O18. -/
theorem clsClearsEveryCell : Obligations.ClsClearsEveryCell :=
  ⟨decodeWord_encodeWord .cls, fun s => ⟨_, rfl, Framebuffer.get_clear, setFb_frame s _⟩⟩

/-- Settles O19; a sprite has at most 15 rows, so no row meets itself around the wrap. -/
theorem drwFlipsCoveredCells : Obligations.DrwFlipsCoveredCells := by
  refine ⟨fun x y n => decodeWord_ofNat (ofNat_wordXYN 0xD x y n ?_), fun s x y n h => ?_,
    fun s x y n h0 h => exec_drw_outOfRange h0 h⟩
  · simp only [BitVec.reduceToNat]; omega
  · have hn : n.toNat ≤ 32 := by omega
    exact ⟨_, exec_drw_ok h, drawn_get_ne_iff s _ _ hn, (drawn_getV_flag_eq_one_iff s _ _ hn).2,
      drawn_getV_flag_eq_zero s _ _ hn, rfl, drawn_frame s _ _ _⟩

/-- Settles O20: the second draw has the coordinates, I and MEM of the first. -/
theorem drawingTwiceErases : Obligations.DrawingTwiceErases := by
  intro s t x y n h ht hx hy
  have hn : n.toNat ≤ 32 := by omega
  obtain rfl := Host.Outcome.next.inj ((exec_drw_ok h).symm.trans ht)
  refine ⟨_, exec_drw_ok h, ?_⟩
  rw [hx, hy]
  refine ⟨drawn_drawn_get s _ _ hn, fun hclear => ?_⟩
  rw [drawn_getV_flag_eq_one_iff _ _ _ hn, ← exists_spriteCovers_iff s (s.getV x) (s.getV y)]
  simp only [drawn_get_eq_true_iff_of_clear hclear _ _ hn, spriteCovers_drawn, and_self]

/-- Settles O39: P1 clears DRAW, the two faults before the instruction leave it so, and the phases after the instruction
keep DRAW and the fault record. -/
theorem drawFlagSaysDrwRan : Obligations.DrawFlagSaysDrwRan := by
  refine ⟨rfl, fun s t h => ?_⟩
  obtain ⟨h0, ⟨-, rfl⟩ | ⟨-, -, rfl⟩ | ⟨i, u, hi, hu, rfl⟩⟩ := stepWith_inv h
  · exact iff_of_false Bool.false_ne_true fun ⟨hok, _⟩ => nomatch hok
  · exact iff_of_false Bool.false_ne_true fun ⟨hok, _⟩ => nomatch hok
  · have hdraw : (finishStep Config.timerPerStep u).nextInput.draw = u.draw := stepEnd_frame _ u .draw (by simp)
    have hran : (∃ x y n, i = .drw x y n) ↔ ∃ x y n, Executes s (.drw x y n) :=
      exists_congr fun _ => exists_congr fun _ => exists_congr fun _ => ⟨fun e => e ▸ hi, hi.unique⟩
    rw [hdraw, stepEnd_fault, exec_draw_iff hu h0 rfl, hran]

end Sys2Proof.Machine
end

section
/-! SUPPORT. Timers and keys in the statements of spec/45_timers_keys.md: the timer moves with the decrement of their own step (R220 to R222, R125), the key tests (R223, R224), the key-wait (R225) and the core blocked in one (R289, R259). -/

namespace Sys2Proof

/-- A word EXKK written out, `k` being its three fixed digits (R93, R97). -/
theorem decodeWord_EXKK {k : Nat} {i : Instr} (x : Reg) (kk : Byte) (hk : k = 0xE000 + kk.toNat)
    (hi : encodeWord i = wordXK 0xE x kk) : decodeWord (BitVec.ofNat 16 (k + 256 * x.val)) = .ok i := by
  rw [hk, Nat.add_right_comm]
  exact decodeWord_XKK 0xE x kk rfl hi

end Sys2Proof

namespace Sys2Proof.Machine

/-! ## The registers and timers after a step (R125) -/

/-- A step whose instruction does not fault keeps the registers the instruction leaves and counts down the timers it
leaves. -/
theorem Executes.step_registers_timers {s t : State} {i : Instr} (hi : Executes s i)
    (ht : exec i (entryState s) = .next t) (hok : t.fault.cause = none) : ∃ u, step s = .next u ∧
    (∀ r, u.getV r = t.getV r) ∧ u.dt.toNat = t.dt.toNat - 1 ∧ u.st.toNat = t.st.toNat - 1 := by
  obtain ⟨u, hu, hframe, -, hafter⟩ := stepRunsTheDecodedInstruction s t i hi ht
  obtain ⟨hdt, hst, -⟩ := hafter hok
  exact ⟨u, hu, fun r => hframe (.v r) (by simp), hdt, hst⟩

/-! ## The key tests (R223, R224) -/

theorem keyHeld_eq_decide (keys : BitVec 16) (k : Byte) :
    keyHeld keys k = decide (k.toNat ≤ 15 ∧ keys.getLsbD k.toNat = true) := by
  rw [keyHeld, Bool.decide_and, Bool.decide_eq_true]

theorem exec_skp (s : State) (x : Reg) : exec (.skp x) s =
    .next (s.skipIf (decide ((s.getV x).toNat ≤ 15 ∧ s.keys.getLsbD (s.getV x).toNat = true))) :=
  keyHeld_eq_decide s.keys (s.getV x) ▸ rfl

theorem exec_sknp (s : State) (x : Reg) : exec (.sknp x) s =
    .next (s.skipIf (decide ¬((s.getV x).toNat ≤ 15 ∧ s.keys.getLsbD (s.getV x).toNat = true))) := by
  rw [decide_not, ← keyHeld_eq_decide]
  rfl

/-! ## The key-wait (R225) -/

theorem exec_ldVxK_blocked {s : State} (x : Reg) (h : s.keys = 0) :
    exec (.ldVxK x) s = .next (s.setPc (s.pc - 2)) := by
  simp only [exec, execLdVxK, highestKey_none_iff_zero.2 h]

theorem exec_ldVxK_pressed {s : State} (x : Reg) {k : Nat} (h : highestKey s.keys 16 = some k) :
    exec (.ldVxK x) s = .next (s.setV x (BitVec.ofNat 8 k)) := by
  simp only [exec, execLdVxK, h]

/-- A latch that is not 0 has a highest key. -/
theorem exists_highestKey {keys : BitVec 16} (h : keys ≠ 0) : ∃ k : Fin 16, highestKey keys 16 = some k.val ∧
    keys.getLsbD k.val = true ∧ ∀ j : Fin 16, k < j → keys.getLsbD j.val = false := by
  obtain ⟨k, hk⟩ := Option.ne_none_iff_exists'.1 (mt highestKey_none_iff_zero.1 h)
  obtain ⟨hlt, hheld, hhigher⟩ := highestKey_eq_some.1 hk
  exact ⟨⟨k, hlt⟩, hk, hheld, fun j hj => hhigher j.val hj j.isLt⟩

/-! ## The core blocked in a key-wait (R289) -/

/-- A step that is no `DRW` leaves DRAW 0 (R213). -/
theorem Executes.step_draw_off {s t : State} {i : Instr} (hi : Executes s i) (hne : ∀ x y n, i ≠ .drw x y n)
    (h : step s = .next t) : t.draw = false := by
  obtain ⟨-, hiff⟩ := drawFlagSaysDrwRan
  refine Bool.eq_false_iff.2 fun hd => ?_
  obtain ⟨-, x, y, n, hdrw⟩ := (hiff s t h).1 hd
  exact hne x y n (hi.unique hdrw)

/-- The word of a coming instruction is not 0, which is no instruction's (R101). -/
theorem Executes.wordAt_ne_zero {s : State} {i : Instr} (h : Executes s i) : wordAt s s.pc.toNat ≠ 0 := by
  intro h0
  obtain ⟨-, -, hd⟩ := h
  rw [h0] at hd
  cases hd

/-- A step that leaves an instruction coming leaves ENDED 0 (R126). -/
theorem Executes.ended_off_of_step {s t : State} {i : Instr} (hi : Executes t i) (h : step s = .next t) :
    t.ended = false := by
  have hok : t.fault.cause = none := hi.1
  refine Bool.eq_false_iff.2 fun he => hi.wordAt_ne_zero ?_
  obtain ⟨-, hbytes⟩ := (endedReportLooksAtTheNextWord s t h hok).1 he
  exact (wordAt_eq_zero_iff t _).2 hbytes

/-! ## The statements -/

/-- Settles O21: `exec` moves the value, and phase P6 of the same step counts the timers down. -/
theorem timerMovesAndTheirStep : Obligations.TimerMovesAndTheirStep := by
  refine ⟨fun x => ⟨decodeWord_FXKK x 0x07 rfl rfl, decodeWord_FXKK x 0x15 rfl rfl, decodeWord_FXKK x 0x18 rfl rfl⟩,
    fun s x => ⟨_, rfl, s.getV_setV_same x s.dt, setV_frame s x _⟩, fun s x => ⟨_, rfl, rfl, setDt_frame s _⟩,
    fun s x => ⟨_, rfl, rfl, setSt_frame s _⟩, fun s x hi => ?_, fun s x hi => ?_, fun s x hi => ?_⟩ <;>
    obtain ⟨u, hu, hv, hdt, hst⟩ := hi.step_registers_timers rfl hi.1
  · exact ⟨u, hu, (hv x).trans ((entryState s).getV_setV_same x s.dt), hdt⟩
  · exact ⟨u, hu, hdt⟩
  · exact ⟨u, hu, hst⟩

/-- Settles O22: the key test as one condition, then each skip on it. -/
theorem keySkipsTestTheLatch : Obligations.KeySkipsTestTheLatch :=
  ⟨fun x => ⟨decodeWord_EXKK x 0x9E rfl rfl, decodeWord_EXKK x 0xA1 rfl rfl⟩,
    fun s x => ⟨_, exec_skp s x, skipIf_frame s _, s.skipIf_decide_pc _⟩,
    fun s x => ⟨_, exec_sknp s x, skipIf_frame s _, s.skipIf_decide_not_pc _⟩⟩

/-- Settles O23. -/
theorem keyWaitTakesTheHighestKey : Obligations.KeyWaitTakesTheHighestKey := by
  refine ⟨fun x => decodeWord_FXKK x 0x0A rfl rfl,
    fun s x h => ⟨_, exec_ldVxK_blocked x h, rfl, setPc_frame s _⟩, fun s x h => ?_⟩
  obtain ⟨k, hk, hheld, hhigher⟩ := exists_highestKey h
  refine ⟨_, k, exec_ldVxK_pressed x hk, ?_, hheld, hhigher, setV_frame s x _⟩
  rw [State.getV_setV_same, BitVec.toNat_ofNat, Nat.mod_eq_of_lt (by omega)]

/-- Settles O24: the latch is in the frame of the steps before, so each step finds it 0 and puts pc back. -/
theorem blockedKeyWaitStandsStill : Obligations.BlockedKeyWaitStandsStill := by
  intro n s x hi hkeys
  have hstep : ∀ k t, StoodStill s (.ldVxK x) k t ∧ (k ≠ 0 → t.draw = false ∧ t.ended = false) →
      ∃ u, step t = .next u ∧ StoodStill s (.ldVxK x) (k + 1) u ∧
        (k + 1 ≠ 0 → u.draw = false ∧ u.ended = false) := by
    rintro k t ⟨h, -⟩
    have hlatch : (entryState t).keys = 0 := (h.frame .keys (by simp)).trans hkeys
    have hback : (entryState t).pc - 2 = t.pc := BitVec.add_sub_cancel t.pc 2
    obtain ⟨u, hu, hstood⟩ := h.succ (hback ▸ exec_ldVxK_blocked x hlatch)
    exact ⟨u, hu, hstood, fun _ => ⟨h.executes.step_draw_off (by simp) hu, hstood.executes.ended_off_of_step hu⟩⟩
  obtain ⟨t, hrun, ht, hflags⟩ := run_of_step hstep n 0 s ⟨.refl hi, fun h => absurd rfl h⟩
  rw [Nat.zero_add] at ht hflags
  exact ⟨t, hrun, ht.dt, ht.st, ht.executes, hflags, ht.frame⟩

end Sys2Proof.Machine
end

section
/-! SUPPORT. Faults in the statements of spec/60_exceptions.md: which step records which cause, with its info (R241 to R249), and what a run of transactions leaves of a faulted core (R251). -/

namespace Sys2Proof.Machine

/-! ## The record a step writes (R241) -/

/-- The instruction's part of `AccessReaches`: the access of `i` executed on `s` has the highest address `last`. -/
def InstrReaches (s : State) (i : Instr) (last : Nat) : Prop :=
  (∃ x y n, i = .drw x y n ∧ n ≠ 0 ∧ last = s.i.toNat + n.toNat - 1) ∨ (∃ x, i = .ldB x ∧ last = s.i.toNat + 2) ∨
  (∃ x, i = .ldMemVx x ∧ last = s.i.toNat + x.val) ∨ ∃ x, i = .ldVxMem x ∧ last = s.i.toNat + x.val

theorem accessReaches_iff (s : State) (last : Nat) : AccessReaches s last ↔
    (s.fault.cause = none ∧ last = s.pc.toNat + 1) ∨ ∃ i, Executes s i ∧ InstrReaches s i last := by
  refine or_congr_right ⟨?_, ?_⟩
  · rintro (⟨x, y, n, hi, h⟩ | ⟨x, hi, h⟩ | ⟨x, hi, h⟩ | ⟨x, hi, h⟩)
    · exact ⟨_, hi, .inl ⟨x, y, n, rfl, h⟩⟩
    · exact ⟨_, hi, .inr (.inl ⟨x, rfl, h⟩)⟩
    · exact ⟨_, hi, .inr (.inr (.inl ⟨x, rfl, h⟩))⟩
    · exact ⟨_, hi, .inr (.inr (.inr ⟨x, rfl, h⟩))⟩
  · rintro ⟨_, hi, ⟨x, y, n, rfl, h⟩ | ⟨x, rfl, h⟩ | ⟨x, rfl, h⟩ | ⟨x, rfl, h⟩⟩
    · exact .inl ⟨x, y, n, hi, h⟩
    · exact .inr (.inl ⟨x, hi, h⟩)
    · exact .inr (.inr (.inl ⟨x, hi, h⟩))
    · exact .inr (.inr (.inr ⟨x, hi, h⟩))

/-- The rows of R241: when the step of `s` records which cause (R242 to R245), and with what info. -/
abbrev FaultsWith (s : State) : Fault → Word → Prop
  | .unknownOpcode, info => (s.pc.toNat ≤ 0xFFE ∧
      decodeWord (wordAt s s.pc.toNat) = .error (.unknown (wordAt s s.pc.toNat))) ∧ info = wordAt s s.pc.toNat
  | .memoryOutOfRange, info =>
    ∃ last : Nat, (0xFFF < last ∧ AccessReaches s last) ∧ info = BitVec.ofNat 16 (min last 0xFFFF)
  | .stackOverflow, info => (s.sp = 16 ∧ ∃ nnn, Executes s (.call nnn)) ∧ info = 16
  | .stackUnderflow, info => (s.sp = 0 ∧ Executes s .ret) ∧ info = 0

section
variable {perStep : Bool} {s t : State}

/-- What an instruction raises is what its step records, with the address it was fetched from (R249). -/
theorem Executes.stepWith_fault_of_raise {i : Instr} {f : Fault} {info : Word} (hi : Executes s i)
    (hu : exec i (entryState s) = .next ((entryState s).raise f info)) (h : stepWith perStep s = .next t) :
    t.fault = { cause := some f, addr := s.pc, info := info } := by
  obtain rfl := Host.Outcome.next.inj ((stepWith_executes hi hu).symm.trans h)
  rw [stepEnd_fault]
  exact entryFault_fault s f info

/-- Every row of R241 is carried out. -/
theorem stepWith_fault_of_faultsWith {f : Fault} {info : Word} (h0 : s.fault.cause = none)
    (h : stepWith perStep s = .next t) (hw : FaultsWith s f info) :
    t.fault = { cause := some f, addr := s.pc, info := info } := by
  cases f with
  | unknownOpcode =>
    obtain ⟨⟨hp, hd⟩, rfl⟩ := hw
    obtain rfl := Host.Outcome.next.inj ((stepWith_unknown h0 (fetch_wordAt hp) hd).symm.trans h)
    exact entryFault_fault s _ _
  | memoryOutOfRange =>
    obtain ⟨last, ⟨hl, ha⟩, rfl⟩ := hw
    rcases (accessReaches_iff s last).1 ha with ⟨-, rfl⟩ | ⟨i, hi, hr⟩
    · obtain rfl := Host.Outcome.next.inj ((stepWith_fetchFault h0 (s.fetch_error (by omega))).symm.trans h)
      rfl
    · exact hi.stepWith_fault_of_raise (exec_eq_of_forall fun u hu => exec_outOfRange hu hl hr) h
  | stackOverflow =>
    obtain ⟨⟨hs, nnn, hi⟩, rfl⟩ := hw
    exact hi.stepWith_fault_of_raise (exec_call_overflow nnn hs) h
  | stackUnderflow =>
    obtain ⟨⟨hs, hi⟩, rfl⟩ := hw
    exact hi.stepWith_fault_of_raise (exec_ret_underflow hs) h

/-- A step that changes the record meets a row of R241. -/
theorem exists_faultsWith_of_stepWith (h : stepWith perStep s = .next t) (hne : t.fault ≠ s.fault) :
    ∃ f info, FaultsWith s f info := by
  obtain ⟨h0, ⟨hp, -⟩ | ⟨hp, hd, -⟩ | ⟨i, u, hi, hu, rfl⟩⟩ := stepWith_inv h
  · exact ⟨.memoryOutOfRange, _, s.pc.toNat + 1, ⟨by omega, .inl ⟨h0, rfl⟩⟩, rfl⟩
  · exact ⟨.unknownOpcode, _, ⟨hp, hd⟩, rfl⟩
  · rcases exec_raise_cases hu with e | ⟨rfl, hs, -⟩ | ⟨⟨nnn, rfl⟩, hs, -⟩ | ⟨last, hl, -, hr⟩
    · exact absurd ((stepEnd_fault perStep u).trans e) hne
    · exact ⟨.stackUnderflow, _, ⟨hs, hi⟩, rfl⟩
    · exact ⟨.stackOverflow, _, ⟨hs, nnn, hi⟩, rfl⟩
    · exact ⟨.memoryOutOfRange, _, last, ⟨hl, (accessReaches_iff s last).2 (.inr ⟨i, hi, hr⟩)⟩, rfl⟩

/-- A cause found after the step of a core that had none is a row's, with that row's info. -/
theorem faultsWith_of_stepWith {f : Fault} (h0 : s.fault.cause = none) (h : stepWith perStep s = .next t)
    (hf : t.fault.cause = some f) : FaultsWith s f t.fault.info := by
  have hne : t.fault ≠ s.fault := fun e => nomatch hf.symm.trans ((congrArg FaultRecord.cause e).trans h0)
  obtain ⟨g, info, hw⟩ := exists_faultsWith_of_stepWith h hne
  rw [stepWith_fault_of_faultsWith h0 h hw] at hf ⊢
  obtain rfl := Option.some.inj hf
  exact hw

end

/-! ## A faulted core (R251) -/

/-- What the transactions `ts`, none of them a `Reset`, may change of a faulted core. -/
def FaultedMayChange (ts : List Transaction) (p : Part) : Prop :=
  (p = .keys ∧ ∃ mask, .setKeys mask ∈ ts) ∨
  ∃ (image : List Byte) (k : Nat), .load image ∈ ts ∧ image.length ≤ 3584 ∧ k < image.length ∧
    p = .mem (Config.progBase.toNat + k)

theorem FaultedMayChange.mono {ts us : List Transaction} {p : Part} (hsub : ts ⊆ us) (h : FaultedMayChange ts p) :
    FaultedMayChange us p :=
  h.imp (fun ⟨hp, mask, hm⟩ => ⟨hp, mask, hsub hm⟩) fun ⟨image, k, hm, h⟩ => ⟨image, k, hsub hm, h⟩

theorem Frame.refl (s : State) (c : Part → Prop) : Frame s s c :=
  fun p _ => FrameBut.refl s [] p List.not_mem_nil

theorem Frame.mono {s t : State} {c d : Part → Prop} (h : Frame s t c) (hcd : ∀ p, c p → d p) : Frame s t d :=
  fun p hp => h p (mt (hcd p) hp)

/-- A run on a faulted core leaves the record: it is no part that may change. -/
theorem fault_of_faultedFrame {s t : State} {ts : List Transaction} (h : Frame s t (FaultedMayChange ts)) :
    t.fault = s.fault :=
  h .fault (by simp [FaultedMayChange])

theorem load_faultedFrame (s : State) (image : List Byte) :
    Frame s (s.load image).2 (FaultedMayChange [.load image]) := by
  by_cases hl : image.length ≤ 3584
  · rw [s.load_ok hl]
    exact (setMem_frame s 0x200 image).mono fun p ⟨k, hk, hp⟩ =>
      .inr ⟨image, k, List.mem_singleton_self _, hl, hk, hp⟩
  · rw [s.load_refused (Nat.lt_of_not_le hl)]
    exact Frame.refl s _

/-- One transaction other than `Reset`; `Step` and `Observe` change nothing at all (R129, R38). -/
theorem transact_faultedFrame (perStep : Bool) {s : State} {tr : Transaction} (hf : s.fault.cause ≠ none)
    (hr : tr ≠ .reset) : ∃ t r, transact perStep s tr = some (t, r) ∧ Frame s t (FaultedMayChange [tr]) := by
  cases tr with
  | reset => exact absurd rfl hr
  | load image => exact ⟨_, _, rfl, load_faultedFrame s image⟩
  | setKeys mask =>
    exact ⟨_, _, rfl, Frame.mono (setKeys_frame s mask) fun p hp =>
      .inl ⟨List.mem_singleton.1 hp, mask, List.mem_singleton_self _⟩⟩
  | step rnd tick =>
    obtain ⟨f, hc⟩ := Option.ne_none_iff_exists'.1 hf
    exact ⟨s, _, transact_step_faulted rnd tick hc, .refl s _⟩
  | observe => exact ⟨s, _, rfl, .refl s _⟩

theorem transactAll_faultedFrame (perStep : Bool) {ts : List Transaction} : ∀ {s : State}, s.fault.cause ≠ none →
    .reset ∉ ts → ∃ t, transactAll perStep s ts = some t ∧ Frame s t (FaultedMayChange ts) := by
  induction ts with
  | nil => exact fun {s} _ _ => ⟨s, rfl, .refl s _⟩
  | cons tr ts ih =>
    intro s hf hr
    obtain ⟨hne, hr⟩ := not_or.1 (mt List.mem_cons.2 hr)
    obtain ⟨u, r, hu, hsu⟩ := transact_faultedFrame perStep hf (Ne.symm hne)
    obtain ⟨t, ht, hut⟩ := ih (fault_of_faultedFrame hsu ▸ hf) hr
    have hfirst : [tr] ⊆ tr :: ts := List.cons_subset_cons tr (List.nil_subset ts)
    exact ⟨t, by simpa only [transactAll, hu] using ht,
      (hsu.mono fun _ => .mono hfirst).trans (hut.mono fun _ => .mono (List.subset_cons_self tr ts))⟩

/-! ## The statements -/

/-- Settles O33: a cause is recorded exactly by its row of R241; the row determines the record. -/
theorem faultCausesExactly : Obligations.FaultCausesExactly := by
  refine ⟨⟨rfl, rfl, rfl, rfl, rfl⟩, fun s t hc h => ?_⟩
  have h0 : s.fault.cause = none := congrArg FaultRecord.cause hc
  have hrow {f : Fault} (hf : t.fault.cause = some f) : FaultsWith s f t.fault.info := faultsWith_of_stepWith h0 h hf
  have hrecord {f : Fault} {info : Word} (hw : FaultsWith s f info) := stepWith_fault_of_faultsWith h0 h hw
  have hcause {f : Fault} {info : Word} (hw : FaultsWith s f info) : t.fault.cause = some f :=
    congrArg FaultRecord.cause (hrecord hw)
  refine ⟨fun hn => ?_, fun hf => ?_,
    ⟨fun hf => (hrow hf).1, fun hw => hcause ⟨hw, rfl⟩⟩, fun hf => (hrow hf).2,
    ⟨fun hf => ?_, fun ⟨last, hw⟩ => hcause ⟨last, hw, rfl⟩⟩,
    fun last hl ha => congrArg FaultRecord.info (hrecord (f := .memoryOutOfRange) ⟨last, ⟨hl, ha⟩, rfl⟩),
    ⟨fun hf => (hrow hf).1, fun hw => hcause ⟨hw, rfl⟩⟩, fun hf => (hrow hf).2,
    ⟨fun hf => (hrow hf).1, fun hw => hcause ⟨hw, rfl⟩⟩, fun hf => (hrow hf).2⟩
  · by_contra hne
    obtain ⟨f, info, hw⟩ := exists_faultsWith_of_stepWith h (hc ▸ hne)
    exact nomatch hn.symm.trans (hcause hw)
  · obtain ⟨f, hf⟩ := Option.ne_none_iff_exists'.1 hf
    exact congrArg FaultRecord.addr (hrecord (hrow hf))
  · obtain ⟨last, hw, -⟩ := hrow hf
    exact ⟨last, hw⟩

/-- Settles O35, by induction on the run: each transaction meets a faulted core again. -/
theorem onlyResetClearsAFault : Obligations.OnlyResetClearsAFault := by
  refine fun perStep s ts hf => ⟨fun hr => ?_, rfl, rfl⟩
  obtain ⟨t, ht, hst⟩ := transactAll_faultedFrame perStep hf hr
  exact ⟨t, ht, fault_of_faultedFrame hst, hst⟩

end Sys2Proof.Machine
end

section
/-! SUPPORT. Boot in the statements of spec/70_reset_and_hazards.md: the state that `Reset` and `Load` leave, whatever the state before (R281, R283). -/

namespace Sys2Proof.Machine

/-- R73, R280: the run that boots an image that fits leaves the reset state with the image's bytes from 0x200. -/
theorem transactAll_reset_load (perStep : Bool) (s : State) {image : List Byte} (h : image.length ≤ 3584) :
    transactAll perStep s [.reset, .load image] =
      some (State.reset.setMem (State.reset.mem.writeBytes 0x200 image)) :=
  congrArg (fun r : Bool × State => some r.2) (State.reset.load_ok h)

/-- Settles O55: `Load` moves neither pc nor the fault record of the reset state, and the word at 0x200 is read off the
block it writes. -/
theorem bootFetchesTheImage : Obligations.BootFetchesTheImage := by
  intro perStep s hi lo rest h
  refine ⟨_, transactAll_reset_load perStep s h, rfl, rfl, ?_⟩
  have hpc : State.reset.pc.toNat = 0x200 := rfl
  rw [State.setMem_pc, hpc, ← wordOfBytes_eq_ofNat]
  exact wordAt_writeBytes State.reset State.reset.mem 0x200 (bs := hi :: lo :: rest) (Nat.le_add_left 2 rest.length)

end Sys2Proof.Machine
end
